-- ==== Sys2Proof/Word.lean ====
section
/-! DEFINITION. The word types of CORE (00_scope.md R14). -/

namespace Sys2Proof

/-- A Word: a 32-bit unsigned integer, bit 0 the least significant (R14). -/
abbrev Word := BitVec 32

/-- A byte of the byte-source stream, a value 0..255 (R53). -/
abbrev Byte := BitVec 8

end Sys2Proof
end

