-- ==== Sys2Proof/Syntax.lean ====
section
/-! DEFINITION. The commands of CORE (30_encoding.md R80, R81, R86). -/

namespace Sys2Proof

/-- The document's HashMethod as SEL encodes it (R86). -/
inductive Method where
  /-- SEL 8. -/
  | md4
  /-- SEL 1, 2, 3, 4: Snefru at that security level. -/
  | snefru (level : Nat)
  /-- Every other SEL: 0, 5, 6, 7, 9 to 15. -/
  | unknown (id : Nat)
deriving DecidableEq, Repr

/-- A command, one constructor per row of spec/opcode_table.json. `L` is the security level (R85), `n` the input
size (R83), `m` the output size (R84), each the number its field holds; no value is cut off here. -/
inductive Instr where
  /-- Generic compression core (40_compress_generic.md R100). -/
  | cgen (L n m : Nat)
  /-- The 128-variant (41_compress_specialized.md R121, R122). -/
  | c128 (L n m : Nat)
  /-- The 256-variant (R121, R123). -/
  | c256 (L n m : Nat)
  /-- The 384-variant (R121, R124). -/
  | c384 (L n m : Nat)
  /-- The 512-variant (R121, R125). -/
  | c512 (L n m : Nat)
  /-- The dispatcher (42_dispatch.md R140). -/
  | disp (method : Method) (n m : Nat)
  /-- The expander, total output size `T` (43_expand.md R150). -/
  | expand (method : Method) (n T : Nat)
  /-- Open a streaming digest of `d` words (44_digest.md R160). -/
  | digest (L d : Nat)
deriving DecidableEq, Repr

end Sys2Proof
end

