-- ==== Sys2Proof/WellFormed.lean ====
section
/-! DEFINITION. Which commands a command word can hold (30_encoding.md R80, R86): each operand inside its field. -/

namespace Sys2Proof

/-- A method is written as R86's table classes its id. -/
def Method.wf : Method → Bool
  | .md4 => true
  | .snefru L => 1 ≤ L && L ≤ 4
  | .unknown k => k < 16 && k != 8 && !(1 ≤ k && k ≤ 4)

/-- SEL as a level is 4 bits wide (R80, R85). -/
def levelFits (L : Nat) : Bool := L < 16

/-- INSIZE is 8 bits wide (R80, R83). -/
def inSizeFits (n : Nat) : Bool := n < 256

/-- OUTSIZE is 16 bits wide (R80, R84). -/
def outSizeFits (m : Nat) : Bool := m < 65536

/-- The command can be written as a command word. -/
def Instr.wf : Instr → Bool
  | .cgen L n m | .c128 L n m | .c256 L n m | .c384 L n m | .c512 L n m =>
    levelFits L && inSizeFits n && outSizeFits m
  | .disp method n m => method.wf && inSizeFits n && outSizeFits m
  | .expand method n T => method.wf && inSizeFits n && outSizeFits T
  | .digest L d => levelFits L && outSizeFits d

end Sys2Proof
end

