-- ==== Sys2Proof/Decode.lean ====
section
/-! DEFINITION. The decoder of command words, total on all 2^32 of them (30_encoding.md R87, R88), and the encoder.
A command is one whole 32-bit Word of the register space, which has no byte order (20_memory.md R55). -/

namespace Sys2Proof

/-- OP, bits 31:28 (R80). -/
def opField (c : Word) : Nat := (c >>> 28).toNat

/-- SEL, bits 27:24 (R80). -/
def selField (c : Word) : Nat := (c >>> 24).toNat % 16

/-- INSIZE, bits 23:16 (R80). -/
def inSizeField (c : Word) : Nat := (c >>> 16).toNat % 256

/-- OUTSIZE, bits 15:0 (R80). -/
def outSizeField (c : Word) : Nat := c.toNat % 65536

/-- SEL as a method id (R86). -/
def methodOfSel (sel : Nat) : Method :=
  if sel = 8 then .md4 else if 1 ≤ sel ∧ sel ≤ 4 then .snefru sel else .unknown sel

/-- The method id of a method (R86). -/
def selOfMethod : Method → Nat
  | .md4 => 8
  | .snefru L => L
  | .unknown k => k

/-- Why a word is no command. CORE raises E_ILLEGAL for each (R87). -/
inductive DecodeError where
  /-- OP 0x0 or 0x9 to 0xF. -/
  | reservedOpcode (op : Nat)
  /-- OP 0x8 (DIGEST) with INSIZE not 0. -/
  | digestInSize (n : Nat)
deriving DecidableEq, Repr

/-- The decoder's case table over the four fields (R88). -/
def decodeFields (op sel n m : Nat) : Except DecodeError Instr :=
  match op with
  | 1 => .ok (.cgen sel n m)
  | 2 => .ok (.c128 sel n m)
  | 3 => .ok (.c256 sel n m)
  | 4 => .ok (.c384 sel n m)
  | 5 => .ok (.c512 sel n m)
  | 6 => .ok (.disp (methodOfSel sel) n m)
  | 7 => .ok (.expand (methodOfSel sel) n m)
  | 8 => if n = 0 then .ok (.digest sel m) else .error (.digestInSize n)
  | op => .error (.reservedOpcode op)

/-- The decoder (R88). -/
def decode (c : Word) : Except DecodeError Instr :=
  decodeFields (opField c) (selField c) (inSizeField c) (outSizeField c)

/-- word = OP * 2^28 + SEL * 2^24 + INSIZE * 2^16 + OUTSIZE (R80). -/
def packCommand (op sel n m : Nat) : Word :=
  BitVec.ofNat 32 (op * 2 ^ 28 + sel * 2 ^ 24 + n * 2 ^ 16 + m)

/-- The command word of a well-formed command (R80, R81, R86). -/
def encode : Instr → Word
  | .cgen L n m => packCommand 1 L n m
  | .c128 L n m => packCommand 2 L n m
  | .c256 L n m => packCommand 3 L n m
  | .c384 L n m => packCommand 4 L n m
  | .c512 L n m => packCommand 5 L n m
  | .disp method n m => packCommand 6 (selOfMethod method) n m
  | .expand method n T => packCommand 7 (selOfMethod method) n T
  | .digest L d => packCommand 8 L 0 d

/-- What the decoder reads from an instruction of `nbits` bits `w`, numbered as spec/opcode_table.json numbers them;
every bit above `nbits` is 0. All rows have 32 bits, and a longer word is no command (R80). -/
def decodeTableWord (nbits w : Nat) : Option Instr :=
  let bits := w % 2 ^ nbits
  if bits < 2 ^ 32 then (decode (BitVec.ofNat 32 bits)).toOption else none

end Sys2Proof
end

