-- ==== Sys2Proof/Machine/Bits.lean ====
section
/-! DEFINITION. The operators on Words of 00_scope.md R14, R15, and the byte lanes. -/

namespace Sys2Proof.Machine

/-- `ror32(w, s)`: rotate right by `s` bits (R15). -/
def ror32 (w : Word) (s : Nat) : Word := (w >>> s) ||| (w <<< (32 - s))

/-- `w & 0xFF`, the low byte (R14). -/
def lowByte (w : Word) : Byte := w.setWidth 8

/-- Byte lane `j` of a Word, bits 8j+7:8j (R12). -/
def laneByte (w : Word) (j : Nat) : Byte := (w >>> (8 * j)).setWidth 8

/-- `w` with the byte at bits sh+7:sh replaced by `b` (44_digest.md R166). -/
def setByteAt (w : Word) (sh : Nat) (b : Byte) : Word :=
  (w &&& ~~~((0xFF : Word) <<< sh)) ||| (b.setWidth 32 <<< sh)

/-- `pad4(n)`, the next multiple of 4 not below `n` (R16). -/
def pad4 (n : Nat) : Nat := 4 * ((n + 3) / 4)

/-- BITCNT[63:32], and BITCNT[31:0] (10_state.md R33). -/
def highWord (b : BitVec 64) : Word := (b >>> 32).setWidth 32

/-- BITCNT[31:0] (R33). -/
def lowWord (b : BitVec 64) : Word := b.setWidth 32

end Sys2Proof.Machine
end

