-- ==== Sys2Proof/Config.lean ====
section
/-! DEFINITION. What one CORE instance fixes: the parameters of 00_scope.md R9 to R13, and the free values the spec
leaves open (10_state.md R39, R41). -/

namespace Sys2Proof

/-- How the bytes of a chunk are packed into a Word (20_memory.md R56): low-order byte first, or high-order first. -/
inductive ByteOrder where
  | le
  | be
deriving DecidableEq, Repr

/-- The configuration of a CORE instance: everything R9 and R10 of 00_scope.md leave to the instance. Every engine
is written over an arbitrary `Config`; `Config.core` is the one of this hardware. -/
structure Config where
  /-- `SBOX[t][b]`, t in 0..7 (R12). No rule reads a table above 7 (20_memory.md R52). -/
  sbox : Nat → Byte → Word
  /-- `md4c block m k` is Word k of the m Words `MD4C(block, m)` (R13). Nothing relates different m. -/
  md4c : List Word → Nat → Nat → Word
  /-- RES_WORDS, the number of Words of RES (R10). -/
  resWords : Nat
  /-- EXPAND_SEED_SHIFT, the staging index of seed word 0 (R9, R11). -/
  seedShift : Nat
  /-- SRC_BYTE_ORDER (R9, R11). -/
  srcByteOrder : ByteOrder

/-- The constraint R10 puts on RES_WORDS. -/
abbrev Config.Valid (c : Config) : Prop := 16 ≤ c.resWords ∧ c.resWords ≤ 65535

/-- SBOX of this CORE: open in the spec (R12), so without a body (log 5). -/
opaque Config.romWord : Nat → Byte → Word

/-- MD4C of this CORE: a black box of the spec (R5, R13), so without a body (log 6). -/
opaque Config.md4Word : List Word → Nat → Nat → Word

/-- RES_WORDS of this CORE above its least value 16: open in the spec (R10), so without a body (log 7).
The type makes 16 ≤ RES_WORDS ≤ 65535 hold. -/
opaque Config.resExtra : Fin 65520

/-- The configuration of this hardware: the open parameters, EXPAND_SEED_SHIFT = 0 and SRC_BYTE_ORDER = LE (R9, R10). -/
def Config.core : Config where
  sbox := Config.romWord
  md4c := Config.md4Word
  resWords := Config.resExtra + 16
  seedShift := 0
  srcByteOrder := .le

/-! Free values (10_state.md R39, R41: "must not pick zero"). Each takes the number of the draw, and an index. -/

/-- What IN[i] holds after a RESET (log 9). -/
opaque Config.freeIn : Nat → Nat → Word

/-- What RES[i] holds after a RESET (log 9). -/
opaque Config.freeRes : Nat → Nat → Word

/-- What CHAIN[i] holds while no digest is open (log 10). -/
opaque Config.freeChain : Nat → Nat → Word

/-- What BITCNT holds while no digest is open (log 10). -/
opaque Config.freeBitcnt : Nat → BitVec 64

/-- What DSIZE holds while no digest is open (log 10). -/
opaque Config.freeDsize : Nat → BitVec 4

/-- What DLEVEL holds while no digest is open (log 10). -/
opaque Config.freeDlevel : Nat → BitVec 3

end Sys2Proof
end

