-- ==== Sys2Proof/Machine/State.lean ====
section
/-! DEFINITION. The state of CORE (10_state.md), the reasons a step has no next state, and the state after RESET. -/

namespace Sys2Proof.Machine

/-- ST, the sequencer state (R27). The reserved value 3 is never taken. -/
inductive SeqState where
  /-- 0: no command in progress. -/
  | idle
  /-- 1: a streaming digest is open. -/
  | stream
  /-- 2: a ConfigurationError was raised. -/
  | fault
deriving DecidableEq, Repr

/-- The causes of ConfigurationError (60_exceptions.md R191). -/
inductive ErrCode where
  /-- 0x01 E_LEVEL: security level 0 or above 4. -/
  | level
  /-- 0x02 E_OUT_MIN: output size below 2. -/
  | outMin
  /-- 0x03 E_OUT_GT_IN: output size above input size. -/
  | outGtIn
  /-- 0x04 E_IN_SIZE: input size above 16, or outside the variant's size class. -/
  | inSize
  /-- 0x05 E_OUT_PAD: outputSize + 2 > paddedLength. -/
  | outPad
  /-- 0x06 E_OUT_CAP: output size above the variant's cap. -/
  | outCap
  /-- 0x07 E_METHOD: unknown method id. -/
  | method
  /-- 0x08 E_EXP_IN: expander seed larger than the staging block. -/
  | expIn
  /-- 0x09 E_EXP_OUT: expander total larger than RES. -/
  | expOut
  /-- 0x0A E_DIGEST_SIZE: digest size 16 or more. -/
  | digestSize
  /-- 0x0B E_MD4_SHAPE: MD4 dispatch of another shape than 16 Words in, 1..4 out. -/
  | md4Shape
  /-- 0x0C E_ILLEGAL: reserved opcode, or DIGEST with INSIZE not 0. -/
  | illegal
deriving DecidableEq, Repr

/-- The events of the observation trace (R40). -/
inductive Event where
  /-- The one-time efficiency warning. -/
  | warnEmitted
  /-- The report of a ConfigurationError to the fatal-error collaborator. -/
  | fatalReport (code : ErrCode)
  /-- One byte-source read with its answer. -/
  | srcRead (maxWords : Nat) (bytes : List Byte)
deriving DecidableEq, Repr

/-- What the world outside can do to CORE in one step (20_memory.md R62). A command is a `memWrite` to CMD. -/
inductive Transaction where
  /-- The reset input (70_reset_and_hazards.md R220). -/
  | reset
  /-- `MemRead(addr, width)`: a Host read of `width` bytes at a byte address. -/
  | memRead (addr width : Nat)
  /-- `MemWrite(addr, width, v)`: a Host write. Only width 4 is a transaction of CORE (R59), so `v` is a Word. -/
  | memWrite (addr width : Nat) (v : Word)
  /-- CHUNK: the byte source's answer to `SrcRead` (44_digest.md R165). -/
  | chunk (bytes : List Byte)
deriving DecidableEq, Repr

/-- The machine stops with a fault: never. No rule of CORE stops the machine; a ConfigurationError is entered, as a
next state (60_exceptions.md R196, log 13). So nobody raises a `Fault`, which is safe. -/
inductive Fault where
deriving DecidableEq, Repr

/-- Why a step has no meaning. All but `notModelled` are the transactions to which the spec gives no step
(45_host_transactions.md R186): refusing them is what the spec asks for, and safe. -/
inductive Refusal where
  /-- An instruction without a meaning yet; raised in `exec`'s arms only. Safe. -/
  | notModelled (mnemonic : String)
  /-- A WRIN, command or CHUNK in a sequencer state that does not accept it (20_memory.md R62, log 12).
  Raised by every command's meaning, WRIN and CHUNK. Safe. -/
  | notAccepted (st : SeqState)
  /-- A Host access of another width than 4 bytes (R59). Raised by the Host accesses. Safe. -/
  | badWidth (width : Nat)
  /-- A Host access at an address that is not a multiple of 4 (R59). Raised by the Host accesses. Safe. -/
  | misaligned (addr : Nat)
  /-- A Host access to an address the register map does not list (R58, R59). Raised by the Host accesses. Safe. -/
  | unmapped (addr : Nat)
  /-- A write to a read-only or a read of a write-only register (R59). Raised by the Host accesses. Safe. -/
  | wrongDirection (addr : Nat)
  /-- A byte-source answer of more than 4 * (16 - DSIZE) bytes (44_digest.md R165). Raised by CHUNK. Safe. -/
  | chunkTooLong (bytes : Nat)
deriving DecidableEq, Repr

/-- The state of one CORE instance. The last three fields are the model's own (logs 1, 3, 11). -/
structure State where
  /-- ST (R27). -/
  st : SeqState
  /-- DONE (R29). -/
  done : Bool
  /-- WARN, the one-time-warning latch (R30). -/
  warn : Bool
  /-- ERR, the code of the ConfigurationError, 0 outside FAULT (R32). -/
  err : BitVec 8
  /-- IN[0..15], the input buffer (R21). -/
  inp : Vector Word 16
  /-- RES[0..RES_WORDS-1], the result buffer (R22). -/
  res : List Word
  /-- CHAIN[0..15], the chain block (R24). -/
  chain : Vector Word 16
  /-- BITCNT (R33). -/
  bitcnt : BitVec 64
  /-- DSIZE (R34). -/
  dsize : BitVec 4
  /-- DLEVEL (R34). -/
  dlevel : BitVec 3
  /-- The observation trace, oldest event first (R40). -/
  trace : List Event
  /-- The transactions to come, in order. -/
  pending : List Transaction
  /-- The Words returned to the Host, oldest first. -/
  answers : List Word
  /-- The number of the next free draw. -/
  draws : Nat
deriving DecidableEq, Repr

/-- The outcome of a step of CORE. -/
abbrev Out := Host.Outcome State Fault Refusal

/-- Sixteen Words given by index, written out so that they evaluate. -/
def vec16 (f : Nat → Word) : Vector Word 16 :=
  #v[f 0, f 1, f 2, f 3, f 4, f 5, f 6, f 7, f 8, f 9, f 10, f 11, f 12, f 13, f 14, f 15]

/-- The machine right after reset (10_state.md R41, 70_reset_and_hazards.md R220, R221): IDLE with all flags clear, every
unspecified word a free value of draw 0 (logs 9, 10), an empty trace, nothing pending. -/
def State.reset : State where
  st := .idle
  done := false
  warn := false
  err := 0
  inp := vec16 (Config.freeIn 0)
  res := (List.range Config.core.resWords).map (Config.freeRes 0)
  chain := vec16 (Config.freeChain 0)
  bitcnt := Config.freeBitcnt 0
  dsize := Config.freeDsize 0
  dlevel := Config.freeDlevel 0
  trace := []
  pending := []
  answers := []
  draws := 1

end Sys2Proof.Machine
end

