-- ==== Sys2Proof/Machine/Flags.lean ====
section
/-! DEFINITION. DONE, WARN, the STATUS view and the output lines (10_state.md R27 to R35, 60_exceptions.md R194).
CORE has no condition codes (R31), so these are all its flag computations. -/

namespace Sys2Proof.Machine

/-- The 2-bit value of ST (R27). -/
def SeqState.code : SeqState → BitVec 2
  | .idle => 0
  | .stream => 1
  | .fault => 2

/-- The 8-bit code of a cause (60_exceptions.md R191). -/
def ErrCode.code : ErrCode → BitVec 8
  | .level => 0x01
  | .outMin => 0x02
  | .outGtIn => 0x03
  | .inSize => 0x04
  | .outPad => 0x05
  | .outCap => 0x06
  | .method => 0x07
  | .expIn => 0x08
  | .expOut => 0x09
  | .digestSize => 0x0A
  | .md4Shape => 0x0B
  | .illegal => 0x0C

/-- `DONE <- 0`, done when a command is accepted (R29). -/
def State.clearDone (s : State) : State := { s with done := false }

/-- The test and set of the warning latch: only the first warning emits an event (42_dispatch.md R144). -/
def State.latchWarn (s : State) : State :=
  if s.warn then s else { s with warn := true, trace := s.trace ++ [.warnEmitted] }

/-- STATUS = {0[15:0], ERR, 0[3:0], WARN, DONE, ST}: ST in bits 1:0, DONE in bit 2, WARN in bit 3, ERR in bits 15:8,
every other bit 0 (R35, 45_host_transactions.md R183). -/
def State.statusWord (s : State) : Word :=
  s.st.code.setWidth 32 ||| (BitVec.ofBool s.done).setWidth 32 <<< 2 ||| (BitVec.ofBool s.warn).setWidth 32 <<< 3 |||
    s.err.setWidth 32 <<< 8

/-- The output `done` (60_exceptions.md R194). -/
def State.doneLine (s : State) : Bool := s.done

/-- The output `fault` (R194). -/
def State.faultLine (s : State) : Bool := s.st = .fault

/-- The pulse on the output `warn` of the step from `s` to `t`: one WarnEmitted more in the trace (R194, R144). -/
def warnPulse (s t : State) : Bool := t.trace.count .warnEmitted = s.trace.count .warnEmitted + 1

end Sys2Proof.Machine
end

