-- ==== Sys2Proof/Machine/Ops.lean ====
section
/-! DEFINITION. The named operations over the state: accepting a command, reading and writing the buffers, raising a
ConfigurationError, completing a command, and RESET, the only way out of FAULT. -/

namespace Sys2Proof.Machine

/-- A command, and a WRIN, is a step in IDLE only (20_memory.md R62); elsewhere it has no step (R186). -/
def whenIdle (s : State) (k : Out) : Out := if s.st = .idle then k else .refused (.notAccepted s.st)

/-- IN as a sequence of Words, index 0 first. -/
def State.inWords (s : State) : List Word := s.inp.toList

/-- `IN[i] <- v` (45_host_transactions.md R180). -/
def State.writeIn (s : State) (i : Nat) (v : Word) : State := { s with inp := s.inp.setIfInBounds i v }

/-- `RES[k] <- out[k]` for every k of `out`; every other Word of RES keeps its value (10_state.md R22). -/
def State.writeRes (s : State) (out : List Word) : State := { s with res := out ++ s.res.drop out.length }

/-- A Word returned to the Host (log 3). -/
def State.answer (s : State) (v : Word) : State := { s with answers := s.answers ++ [v] }

/-- TAKING THE EXCEPTION: `raise ConfigurationError(code)` (60_exceptions.md R196). ERR is all it records (R192). -/
def State.raiseConfig (s : State) (code : ErrCode) : State :=
  { s with st := .fault, err := code.code, done := false, trace := s.trace ++ [.fatalReport code] }

/-- The end of a command that computes `out`: the result is written and DONE set. -/
def State.complete (s : State) (out : List Word) : State := { s.writeRes out with done := true }

/-- The common shape of CGEN, C128 to C512, DISP and EXPAND (R100, R121, R140, R150): on a failed check the
fault entry, else RES and DONE. -/
def State.conclude (s : State) : Except ErrCode (List Word) → State
  | .ok out => s.complete out
  | .error code => s.raiseConfig code

/-- The first failing check of a command's table decides the code (60_exceptions.md R195). -/
def firstFailing : List (Bool × ErrCode) → Option ErrCode
  | [] => none
  | (fails, code) :: rest => if fails then some code else firstFailing rest

/-- `out` unless a check of the table fails. -/
def checked (checks : List (Bool × ErrCode)) (out : List Word) : Except ErrCode (List Word) :=
  match firstFailing checks with
  | some code => .error code
  | none => .ok out

/-- CHAIN, BITCNT, DSIZE and DLEVEL hold no value: a fresh free draw (10_state.md R39, log 10). -/
def State.discardDigest (s : State) : State :=
  { s with
    chain := vec16 (Config.freeChain s.draws)
    bitcnt := Config.freeBitcnt s.draws
    dsize := Config.freeDsize s.draws
    dlevel := Config.freeDlevel s.draws
    draws := s.draws + 1 }

/-- RESET (70_reset_and_hazards.md R220): the way out of FAULT (R198). IN and RES too hold a fresh free draw (log 9);
the trace, and the model's queue and answers, keep what they had. -/
def State.applyReset (c : Config) (s : State) : State :=
  { s.discardDigest with
    st := .idle
    done := false
    warn := false
    err := 0
    inp := vec16 (Config.freeIn s.draws)
    res := (List.range c.resWords).map (Config.freeRes s.draws) }

end Sys2Proof.Machine
end

