-- ==== Sys2Proof/Machine/Operands.lean ====
section
/-! DEFINITION. The operands of a command: the level, the method, the size classes, the padded input block and the
output fold (30_encoding.md R83 to R86, 40_compress_generic.md R101, R102, R106). -/

namespace Sys2Proof.Machine

/-- Check 1 of every compression fails: the level is 0 or `2*L > 8` (R101, R126, R161). -/
def badLevel (L : Nat) : Bool := L = 0 || 2 * L > 8

/-- The method selects no engine (42_dispatch.md R146, 43_expand.md R155 check 1). -/
def unknownMethod : Method → Bool
  | .md4 => false
  | .snefru L => !(1 ≤ L && L ≤ 4)
  | .unknown _ => true

/-- Word `i` of the input of size `n`, padded with zeros: IN[n..] is not read (R102, 10_state.md R21). -/
def padWord (n : Nat) (inp : List Word) (i : Nat) : Word := if i < n then inp.getD i 0 else 0

/-- The padded input X[0..P-1] (R102). -/
def padInput (P n : Nat) (inp : List Word) : List Word := (List.range P).map (padWord n inp)

/-- The output fold: `out[k] = X[k] ^ W[P-1-k]` for k in 0..m-1 (R106). -/
def foldOutput (P m : Nat) (X W : List Word) : List Word :=
  (List.range m).map fun k => X.getD k 0 ^^^ W.getD (P - 1 - k) 0

end Sys2Proof.Machine
end

