-- ==== Sys2Proof/Machine/Compress.lean ====
section
/-! DEFINITION. CGEN, the generic compression core (40_compress_generic.md R100 to R107). -/

namespace Sys2Proof.Machine

/-- ROT[0..3] = 16, 8, 16, 24: the right rotation that ends pass `p` (00_scope.md R8, R105). -/
def rotAmount : Nat → Nat
  | 0 => 16
  | 1 => 8
  | 2 => 16
  | _ => 24

/-- The table used at position `i` of round `r` (R103, R104): pairs of positions alternate. -/
def tableIndex (r i : Nat) : Nat := 2 * r + (i / 2) % 2

/-- `W[i] <- W[i] ^ e`. -/
def xorAt (W : List Word) (i : Nat) (e : Word) : List Word := W.set i (W.getD i 0 ^^^ e)

/-- The substitution step at position `i`: the entry indexed by the low byte of W[i], as it is now, goes into both
circular neighbours (R104). -/
def subStep (c : Config) (r P : Nat) (W : List Word) (i : Nat) : List Word :=
  let e := c.sbox (tableIndex r i) (lowByte (W.getD i 0))
  xorAt (xorAt W ((i + 1) % P) e) ((i + P - 1) % P) e

/-- The substitution of one pass: positions 0 to P-1 in ascending order, in place (R104). -/
def subPass (c : Config) (r P : Nat) (W : List Word) : List Word := (List.range P).foldl (subStep c r P) W

/-- Pass `p` of round `r`: substitution, then every word rotated right (R105). -/
def corePass (c : Config) (r P : Nat) (W : List Word) (p : Nat) : List Word :=
  (subPass c r P W).map fun w => ror32 w (rotAmount p)

/-- Round `r`: four passes (R103). -/
def coreRound (c : Config) (P : Nat) (W : List Word) (r : Nat) : List Word := (List.range 4).foldl (corePass c r P) W

/-- `Core(L, P, X)`: L rounds (R103). -/
def coreRounds (c : Config) (L P : Nat) (X : List Word) : List Word := (List.range L).foldl (coreRound c P) X

/-- The checks of CompressGeneric in their order (R101). -/
def genericChecks (L n m : Nat) : List (Bool × ErrCode) :=
  [(badLevel L, .level), (m < 2, .outMin), (m > n, .outGtIn), (n > 16, .inSize), (m + 2 > pad4 n, .outPad)]

/-- `CompressGeneric(L, inp, n, m)` (R101). -/
def compressGeneric (c : Config) (L : Nat) (inp : List Word) (n m : Nat) : Except ErrCode (List Word) :=
  let P := pad4 n
  let X := padInput P n inp
  checked (genericChecks L n m) (foldOutput P m X (coreRounds c L P X))

/-- CGEN over a configuration (R100). -/
def cgenWith (c : Config) (L n m : Nat) (s : State) : Out :=
  whenIdle s (.next (s.clearDone.conclude (compressGeneric c L s.inWords n m)))

/-- The meaning of CGEN (R100). -/
def execCgen (L n m : Nat) (s : State) : Out := cgenWith Config.core L n m s

end Sys2Proof.Machine
end

