-- ==== Sys2Proof/Machine/Specialized.lean ====
section
/-! DEFINITION. C128, C256, C384, C512: the four specialised compressors (41_compress_specialized.md R120 to R128), each
a straight-line datapath over its own named block registers, as R122 to R125 list them. That they equal the generic
core (R127) is a theorem, not their definition. -/

namespace Sys2Proof.Machine

/-- The block registers of the 128-variant (R122). -/
structure Block128 where
  (b0 b1 b2 b3 : Word)
deriving DecidableEq, Repr

/-- The block registers of the 256-variant (R123). -/
structure Block256 where
  (b0 b1 b2 b3 b4 b5 b6 b7 : Word)
deriving DecidableEq, Repr

/-- The block registers of the 384-variant (R124). -/
structure Block384 where
  (b0 b1 b2 b3 b4 b5 b6 b7 b8 b9 b10 b11 : Word)
deriving DecidableEq, Repr

/-- The block registers of the 512-variant (R125). -/
structure Block512 where
  (b0 b1 b2 b3 b4 b5 b6 b7 b8 b9 b10 b11 b12 b13 b14 b15 : Word)
deriving DecidableEq, Repr

/-- The checks of a variant with size class lo..hi and output cap `cap`, in their order (R126). -/
def variantChecks (lo hi cap L n m : Nat) : List (Bool × ErrCode) :=
  [(badLevel L, .level), (n < lo || n > hi, .inSize), (m > cap, .outCap), (m < 2, .outMin), (m > n, .outGtIn)]

/-- One pass of the 128-variant: the substitution lines of R122 top to bottom, then the rotation. -/
def pass128 (S0 S1 : Byte → Word) (rot : Nat) : Block128 → Block128
  | ⟨b0, b1, b2, b3⟩ =>
    let e := S0 (lowByte b0); let b1 := b1 ^^^ e; let b3 := b3 ^^^ e
    let e := S0 (lowByte b1); let b2 := b2 ^^^ e; let b0 := b0 ^^^ e
    let e := S1 (lowByte b2); let b3 := b3 ^^^ e; let b1 := b1 ^^^ e
    let e := S1 (lowByte b3); let b0 := b0 ^^^ e; let b2 := b2 ^^^ e
    ⟨ror32 b0 rot, ror32 b1 rot, ror32 b2 rot, ror32 b3 rot⟩

/-- The rounds of the 128-variant: SBox0 and SBox1 of round `r` are SBOX[2r] and SBOX[2r+1] (R122). -/
def rounds128 (c : Config) (L : Nat) (b : Block128) : Block128 :=
  (List.range L).foldl
    (fun b r => (List.range 4).foldl (fun b p => pass128 (c.sbox (2 * r)) (c.sbox (2 * r + 1)) (rotAmount p) b) b) b

/-- The block registers loaded with the zero-filled input x (R122). -/
def load128 (n : Nat) (inp : List Word) : Block128 :=
  let x := padWord n inp
  ⟨x 0, x 1, x 2, x 3⟩

/-- The output assignments of the 128-variant, the first `m` of them: the higher ones are omitted (R122, R121). -/
def output128 (m : Nat) (x b : Block128) : List Word :=
  [x.b0 ^^^ b.b3, x.b1 ^^^ b.b2].take m

/-- `Compress128(L, inp, n, m)` (R122, R126). -/
def compress128 (c : Config) (L : Nat) (inp : List Word) (n m : Nat) : Except ErrCode (List Word) :=
  let x := load128 n inp
  checked (variantChecks 1 4 2 L n m) (output128 m x (rounds128 c L x))

/-- C128 over a configuration (R121). -/
def c128With (c : Config) (L n m : Nat) (s : State) : Out :=
  whenIdle s (.next (s.clearDone.conclude (compress128 c L s.inWords n m)))

/-- The meaning of C128 (R121, R122). -/
def execC128 (L n m : Nat) (s : State) : Out := c128With Config.core L n m s

/-- One pass of the 256-variant: the substitution lines of R123 top to bottom, then the rotation. -/
def pass256 (S0 S1 : Byte → Word) (rot : Nat) : Block256 → Block256
  | ⟨b0, b1, b2, b3, b4, b5, b6, b7⟩ =>
    let e := S0 (lowByte b0); let b1 := b1 ^^^ e; let b7 := b7 ^^^ e
    let e := S0 (lowByte b1); let b2 := b2 ^^^ e; let b0 := b0 ^^^ e
    let e := S1 (lowByte b2); let b3 := b3 ^^^ e; let b1 := b1 ^^^ e
    let e := S1 (lowByte b3); let b4 := b4 ^^^ e; let b2 := b2 ^^^ e
    let e := S0 (lowByte b4); let b5 := b5 ^^^ e; let b3 := b3 ^^^ e
    let e := S0 (lowByte b5); let b6 := b6 ^^^ e; let b4 := b4 ^^^ e
    let e := S1 (lowByte b6); let b7 := b7 ^^^ e; let b5 := b5 ^^^ e
    let e := S1 (lowByte b7); let b0 := b0 ^^^ e; let b6 := b6 ^^^ e
    ⟨ror32 b0 rot, ror32 b1 rot, ror32 b2 rot, ror32 b3 rot, ror32 b4 rot, ror32 b5 rot, ror32 b6 rot,
      ror32 b7 rot⟩

/-- The rounds of the 256-variant: SBox0 and SBox1 of round `r` are SBOX[2r] and SBOX[2r+1] (R123). -/
def rounds256 (c : Config) (L : Nat) (b : Block256) : Block256 :=
  (List.range L).foldl
    (fun b r => (List.range 4).foldl (fun b p => pass256 (c.sbox (2 * r)) (c.sbox (2 * r + 1)) (rotAmount p) b) b) b

/-- The block registers loaded with the zero-filled input x (R123). -/
def load256 (n : Nat) (inp : List Word) : Block256 :=
  let x := padWord n inp
  ⟨x 0, x 1, x 2, x 3, x 4, x 5, x 6, x 7⟩

/-- The output assignments of the 256-variant, the first `m` of them: the higher ones are omitted (R123, R121). -/
def output256 (m : Nat) (x b : Block256) : List Word :=
  [x.b0 ^^^ b.b7, x.b1 ^^^ b.b6, x.b2 ^^^ b.b5, x.b3 ^^^ b.b4, x.b4 ^^^ b.b3, x.b5 ^^^ b.b2].take m

/-- `Compress256(L, inp, n, m)` (R123, R126). -/
def compress256 (c : Config) (L : Nat) (inp : List Word) (n m : Nat) : Except ErrCode (List Word) :=
  let x := load256 n inp
  checked (variantChecks 5 8 6 L n m) (output256 m x (rounds256 c L x))

/-- C256 over a configuration (R121). -/
def c256With (c : Config) (L n m : Nat) (s : State) : Out :=
  whenIdle s (.next (s.clearDone.conclude (compress256 c L s.inWords n m)))

/-- The meaning of C256 (R121, R123). -/
def execC256 (L n m : Nat) (s : State) : Out := c256With Config.core L n m s

/-- One pass of the 384-variant: the substitution lines of R124 top to bottom, then the rotation. -/
def pass384 (S0 S1 : Byte → Word) (rot : Nat) : Block384 → Block384
  | ⟨b0, b1, b2, b3, b4, b5, b6, b7, b8, b9, b10, b11⟩ =>
    let e := S0 (lowByte b0); let b1 := b1 ^^^ e; let b11 := b11 ^^^ e
    let e := S0 (lowByte b1); let b2 := b2 ^^^ e; let b0 := b0 ^^^ e
    let e := S1 (lowByte b2); let b3 := b3 ^^^ e; let b1 := b1 ^^^ e
    let e := S1 (lowByte b3); let b4 := b4 ^^^ e; let b2 := b2 ^^^ e
    let e := S0 (lowByte b4); let b5 := b5 ^^^ e; let b3 := b3 ^^^ e
    let e := S0 (lowByte b5); let b6 := b6 ^^^ e; let b4 := b4 ^^^ e
    let e := S1 (lowByte b6); let b7 := b7 ^^^ e; let b5 := b5 ^^^ e
    let e := S1 (lowByte b7); let b8 := b8 ^^^ e; let b6 := b6 ^^^ e
    let e := S0 (lowByte b8); let b9 := b9 ^^^ e; let b7 := b7 ^^^ e
    let e := S0 (lowByte b9); let b10 := b10 ^^^ e; let b8 := b8 ^^^ e
    let e := S1 (lowByte b10); let b11 := b11 ^^^ e; let b9 := b9 ^^^ e
    let e := S1 (lowByte b11); let b0 := b0 ^^^ e; let b10 := b10 ^^^ e
    ⟨ror32 b0 rot, ror32 b1 rot, ror32 b2 rot, ror32 b3 rot, ror32 b4 rot, ror32 b5 rot, ror32 b6 rot,
      ror32 b7 rot, ror32 b8 rot, ror32 b9 rot, ror32 b10 rot, ror32 b11 rot⟩

/-- The rounds of the 384-variant: SBox0 and SBox1 of round `r` are SBOX[2r] and SBOX[2r+1] (R124). -/
def rounds384 (c : Config) (L : Nat) (b : Block384) : Block384 :=
  (List.range L).foldl
    (fun b r => (List.range 4).foldl (fun b p => pass384 (c.sbox (2 * r)) (c.sbox (2 * r + 1)) (rotAmount p) b) b) b

/-- The block registers loaded with the zero-filled input x (R124). -/
def load384 (n : Nat) (inp : List Word) : Block384 :=
  let x := padWord n inp
  ⟨x 0, x 1, x 2, x 3, x 4, x 5, x 6, x 7, x 8, x 9, x 10, x 11⟩

/-- The output assignments of the 384-variant, the first `m` of them: the higher ones are omitted (R124, R121). -/
def output384 (m : Nat) (x b : Block384) : List Word :=
  [x.b0 ^^^ b.b11, x.b1 ^^^ b.b10, x.b2 ^^^ b.b9, x.b3 ^^^ b.b8, x.b4 ^^^ b.b7, x.b5 ^^^ b.b6, x.b6 ^^^ b.b5,
    x.b7 ^^^ b.b4, x.b8 ^^^ b.b3, x.b9 ^^^ b.b2].take m

/-- `Compress384(L, inp, n, m)` (R124, R126). -/
def compress384 (c : Config) (L : Nat) (inp : List Word) (n m : Nat) : Except ErrCode (List Word) :=
  let x := load384 n inp
  checked (variantChecks 9 12 10 L n m) (output384 m x (rounds384 c L x))

/-- C384 over a configuration (R121). -/
def c384With (c : Config) (L n m : Nat) (s : State) : Out :=
  whenIdle s (.next (s.clearDone.conclude (compress384 c L s.inWords n m)))

/-- The meaning of C384 (R121, R124). -/
def execC384 (L n m : Nat) (s : State) : Out := c384With Config.core L n m s

/-- One pass of the 512-variant: the substitution lines of R125 top to bottom, then the rotation. -/
def pass512 (S0 S1 : Byte → Word) (rot : Nat) : Block512 → Block512
  | ⟨b0, b1, b2, b3, b4, b5, b6, b7, b8, b9, b10, b11, b12, b13, b14, b15⟩ =>
    let e := S0 (lowByte b0); let b1 := b1 ^^^ e; let b15 := b15 ^^^ e
    let e := S0 (lowByte b1); let b2 := b2 ^^^ e; let b0 := b0 ^^^ e
    let e := S1 (lowByte b2); let b3 := b3 ^^^ e; let b1 := b1 ^^^ e
    let e := S1 (lowByte b3); let b4 := b4 ^^^ e; let b2 := b2 ^^^ e
    let e := S0 (lowByte b4); let b5 := b5 ^^^ e; let b3 := b3 ^^^ e
    let e := S0 (lowByte b5); let b6 := b6 ^^^ e; let b4 := b4 ^^^ e
    let e := S1 (lowByte b6); let b7 := b7 ^^^ e; let b5 := b5 ^^^ e
    let e := S1 (lowByte b7); let b8 := b8 ^^^ e; let b6 := b6 ^^^ e
    let e := S0 (lowByte b8); let b9 := b9 ^^^ e; let b7 := b7 ^^^ e
    let e := S0 (lowByte b9); let b10 := b10 ^^^ e; let b8 := b8 ^^^ e
    let e := S1 (lowByte b10); let b11 := b11 ^^^ e; let b9 := b9 ^^^ e
    let e := S1 (lowByte b11); let b12 := b12 ^^^ e; let b10 := b10 ^^^ e
    let e := S0 (lowByte b12); let b13 := b13 ^^^ e; let b11 := b11 ^^^ e
    let e := S0 (lowByte b13); let b14 := b14 ^^^ e; let b12 := b12 ^^^ e
    let e := S1 (lowByte b14); let b15 := b15 ^^^ e; let b13 := b13 ^^^ e
    let e := S1 (lowByte b15); let b0 := b0 ^^^ e; let b14 := b14 ^^^ e
    ⟨ror32 b0 rot, ror32 b1 rot, ror32 b2 rot, ror32 b3 rot, ror32 b4 rot, ror32 b5 rot, ror32 b6 rot,
      ror32 b7 rot, ror32 b8 rot, ror32 b9 rot, ror32 b10 rot, ror32 b11 rot, ror32 b12 rot, ror32 b13 rot,
      ror32 b14 rot, ror32 b15 rot⟩

/-- The rounds of the 512-variant: SBox0 and SBox1 of round `r` are SBOX[2r] and SBOX[2r+1] (R125). -/
def rounds512 (c : Config) (L : Nat) (b : Block512) : Block512 :=
  (List.range L).foldl
    (fun b r => (List.range 4).foldl (fun b p => pass512 (c.sbox (2 * r)) (c.sbox (2 * r + 1)) (rotAmount p) b) b) b

/-- The block registers loaded with the zero-filled input x (R125). -/
def load512 (n : Nat) (inp : List Word) : Block512 :=
  let x := padWord n inp
  ⟨x 0, x 1, x 2, x 3, x 4, x 5, x 6, x 7, x 8, x 9, x 10, x 11, x 12, x 13, x 14, x 15⟩

/-- The output assignments of the 512-variant, the first `m` of them: the higher ones are omitted (R125, R121). -/
def output512 (m : Nat) (x b : Block512) : List Word :=
  [x.b0 ^^^ b.b15, x.b1 ^^^ b.b14, x.b2 ^^^ b.b13, x.b3 ^^^ b.b12, x.b4 ^^^ b.b11, x.b5 ^^^ b.b10,
    x.b6 ^^^ b.b9, x.b7 ^^^ b.b8, x.b8 ^^^ b.b7, x.b9 ^^^ b.b6, x.b10 ^^^ b.b5, x.b11 ^^^ b.b4, x.b12 ^^^ b.b3,
    x.b13 ^^^ b.b2].take m

/-- `Compress512(L, inp, n, m)` (R125, R126). -/
def compress512 (c : Config) (L : Nat) (inp : List Word) (n m : Nat) : Except ErrCode (List Word) :=
  let x := load512 n inp
  checked (variantChecks 13 16 14 L n m) (output512 m x (rounds512 c L x))

/-- C512 over a configuration (R121). -/
def c512With (c : Config) (L n m : Nat) (s : State) : Out :=
  whenIdle s (.next (s.clearDone.conclude (compress512 c L s.inWords n m)))

/-- The meaning of C512 (R121, R125). -/
def execC512 (L n m : Nat) (s : State) : Out := c512With Config.core L n m s

end Sys2Proof.Machine
end

