-- ==== Sys2Proof/Machine/Digest.lean ====
section
/-! DEFINITION. DIGEST and CHUNK, the streaming digest (44_digest.md R160 to R170). -/

namespace Sys2Proof.Machine

/-- The checks of DIGEST in their order (R161). Its check 0 is the decoder's. -/
def digestChecks (L d : Nat) : List (Bool × ErrCode) :=
  [(d ≥ 16, .digestSize), (badLevel L, .level), (d > 14, .outCap), (d < 2, .outMin)]

/-- An open digest: parameters latched, CHAIN and BITCNT zero (R160, R162). -/
def State.openDigest (s : State) (L d : Nat) : State :=
  { s with
    dsize := BitVec.ofNat 4 d
    dlevel := BitVec.ofNat 3 L
    chain := vec16 fun _ => 0
    bitcnt := 0
    st := .stream }

/-- The meaning of DIGEST (R160). -/
def execDigest (L d : Nat) (s : State) : Out :=
  whenIdle s (.next (match firstFailing (digestChecks L d) with
    | some code => s.clearDone.raiseConfig code
    | none => s.clearDone.openDigest L d))

/-- The words a byte-source read asks for: 16 - DSIZE (R163, R164). -/
def State.readWords (s : State) : Nat := 16 - s.dsize.toNat

/-- The read the Engine is waiting on, if any (R163). -/
def State.srcRequest (s : State) : Option Nat := if s.st = .stream then some s.readWords else none

/-- The bit position in its Word of byte `j` of a chunk (20_memory.md R56). -/
def byteShift : ByteOrder → Nat → Nat
  | .le, j => 8 * (j % 4)
  | .be, j => 8 * (3 - j % 4)

/-- Byte `j` of a chunk goes into CHAIN[d + j div 4] (R166). -/
def placeByte (order : ByteOrder) (d : Nat) (ch : Vector Word 16) (j : Nat) (b : Byte) : Vector Word 16 :=
  let w := d + j / 4
  ch.setIfInBounds w (setByteAt (ch.toList.getD w 0) (byteShift order j) b)

/-- The bytes of a chunk from byte `j` on, placed in arrival order; what they do not overwrite stays (R166, R167). -/
def placeBytes (order : ByteOrder) (d : Nat) : Vector Word 16 → Nat → List Byte → Vector Word 16
  | ch, _, [] => ch
  | ch, j, b :: bs => placeBytes order d (placeByte order d ch j b) (j + 1) bs

/-- A read and its answer: the event, the bytes in the tail, the bit counter advanced (R165, R166, R168). -/
def State.receive (c : Config) (s : State) (bytes : List Byte) : State :=
  { s with
    trace := s.trace ++ [.srcRead s.readWords bytes]
    chain := placeBytes c.srcByteOrder s.dsize.toNat s.chain 0 bytes
    bitcnt := s.bitcnt + BitVec.ofNat 64 (8 * bytes.length) }

/-- The digest's compression: the 512-variant over all of CHAIN, to DSIZE words (R169, R170). -/
def State.compressChain (c : Config) (s : State) : Except ErrCode (List Word) :=
  compress512 c s.dlevel.toNat s.chain.toList 16 s.dsize.toNat

/-- `CHAIN[k] <- out[k]` for k in 0..DSIZE-1 (R169). -/
def State.writeHead (s : State) (out : List Word) : State :=
  { s with chain := vec16 fun k => if k < s.dsize.toNat then out.getD k 0 else s.chain.toList.getD k 0 }

/-- CHUNK with bytes: absorb (R169). The fault branch is taken in no reachable state (R193, log 17). -/
def State.absorb (c : Config) (s : State) (bytes : List Byte) : State :=
  let t := s.receive c bytes
  match t.compressChain c with
  | .ok out => t.writeHead out
  | .error code => t.raiseConfig code

/-- `CHAIN[14] <- BITCNT_HI; CHAIN[15] <- BITCNT_LO` (R170). -/
def State.writeLength (s : State) : State :=
  { s with chain := (s.chain.set 14 (highWord s.bitcnt)).set 15 (lowWord s.bitcnt) }

/-- CHUNK without bytes: finalize (R170). The digest state is discarded. -/
def State.finalize (c : Config) (s : State) : State :=
  let t := (s.receive c []).writeLength
  match t.compressChain c with
  | .ok out => { (t.complete out).discardDigest with st := .idle }
  | .error code => t.raiseConfig code

/-- CHUNK: a byte-source answer, accepted in STREAM only and at most 4 * (16 - DSIZE) bytes long (R165). -/
def chunkWith (c : Config) (bytes : List Byte) (s : State) : Out :=
  if s.st ≠ .stream then .refused (.notAccepted s.st)
  else if bytes.length > 4 * s.readWords then .refused (.chunkTooLong bytes.length)
  else if bytes.isEmpty then .next (s.finalize c)
  else .next (s.absorb c bytes)

end Sys2Proof.Machine
end

