-- ==== Sys2Proof/Machine/Dispatcher.lean ====
section
/-! DEFINITION. DISP, the method dispatcher (42_dispatch.md R140 to R146). -/

namespace Sys2Proof.Machine

/-- The words the MD4 collaborator answers: `MD4C(inp[0..15], m)` (R142, 00_scope.md R13). -/
def md4Words (c : Config) (inp : List Word) (m : Nat) : List Word := (List.range m).map (c.md4c (inp.take 16) m)

/-- The MD4 port carries 16 Words one way and 1..4 Words back; any other shape is E_MD4_SHAPE (R142). -/
def md4Checks (n m : Nat) : List (Bool × ErrCode) := [(n ≠ 16 || m < 1 || m > 4, .md4Shape)]

/-- The Snefru engine that serves a block length: its variant, else the generic core (R143, R144). -/
def snefruRoute (c : Config) (L : Nat) (inp : List Word) (n m : Nat) : Except ErrCode (List Word) :=
  if 1 ≤ n ∧ n ≤ 4 then compress128 c L inp n m
  else if 5 ≤ n ∧ n ≤ 8 then compress256 c L inp n m
  else if 9 ≤ n ∧ n ≤ 12 then compress384 c L inp n m
  else if 13 ≤ n ∧ n ≤ 16 then compress512 c L inp n m
  else compressGeneric c L inp n m

/-- The result of `Dispatch(method, inp, n, m)`: the method is examined first, then the length (R141). Its effect on
WARN is `dispatchFallsBack`. -/
def dispatch (c : Config) (method : Method) (inp : List Word) (n m : Nat) : Except ErrCode (List Word) :=
  if unknownMethod method then .error .method
  else match method with
    | .md4 => checked (md4Checks n m) (md4Words c inp m)
    | .snefru L => snefruRoute c L inp n m
    | .unknown _ => .error .method

/-- `Dispatch` takes the fallback to the generic core, and so warns: a Snefru method with a block length outside every
size class (R144). -/
def dispatchFallsBack : Method → Nat → Bool
  | .snefru L, n => !unknownMethod (.snefru L) && (n = 0 || n ≥ 17)
  | .md4, _ => false
  | .unknown _, _ => false

/-- The warning, if any, comes before the engine's checks, and a fault keeps it (R144). -/
def State.warnOnFallback (s : State) (method : Method) (n : Nat) : State :=
  if dispatchFallsBack method n then s.latchWarn else s

/-- DISP over a configuration (R140). -/
def dispWith (c : Config) (method : Method) (n m : Nat) (s : State) : Out :=
  whenIdle s (.next ((s.clearDone.warnOnFallback method n).conclude (dispatch c method s.inWords n m)))

/-- The meaning of DISP (R140). -/
def execDisp (method : Method) (n m : Nat) (s : State) : Out := dispWith Config.core method n m s

end Sys2Proof.Machine
end

