-- ==== Sys2Proof/Machine/Expander.lean ====
section
/-! DEFINITION. EXPAND, the output expander (43_expand.md R150 to R155). -/

namespace Sys2Proof.Machine

/-- The expansion input size of both methods, which is also the capacity of STG (R152, 00_scope.md R8, R9). -/
def expandIn : Nat := 16

/-- The chunk size: 4 Words for MD4, 14 for Snefru (R152). -/
def expandOut : Method → Nat
  | .md4 => 4
  | .snefru _ => 14
  | .unknown _ => 14

/-- The staging block of the chunk tagged `off`: zero, the seed from EXPAND_SEED_SHIFT on, then STG[0] overwritten with
the offset (R151, R152). -/
def staging (c : Config) (seed : List Word) (n off : Nat) : List Word :=
  (List.range expandIn).map fun i =>
    if i = 0 then BitVec.ofNat 32 off
    else if c.seedShift ≤ i then padWord n seed (i - c.seedShift)
    else 0

/-- The loop of `Expand` with `chunks` iterations to go, at offset `off` (R151, R153); the last chunk is
truncated at the total `T` (R154). -/
def expandChunks (c : Config) (method : Method) (seed : List Word) (n T : Nat) : Nat → Nat → Except ErrCode (List Word)
  | 0, _ => .ok []
  | chunks + 1, off =>
    match dispatch c method (staging c seed n off) expandIn (expandOut method) with
    | .error code => .error code
    | .ok chunk =>
      match expandChunks c method seed n T chunks (off + expandOut method) with
      | .error code => .error code
      | .ok rest => .ok (chunk.take (T - off) ++ rest)

/-- How often the loop runs: ceil(T / cout) (R153). -/
def expandCount (method : Method) (T : Nat) : Nat := (T + expandOut method - 1) / expandOut method

/-- The checks of EXPAND in their order (R155). -/
def expandChecks (c : Config) (method : Method) (n T : Nat) : List (Bool × ErrCode) :=
  [(unknownMethod method, .method), (n + c.seedShift > expandIn, .expIn), (T > c.resWords, .expOut)]

/-- `Expand(method, seed, n, T)` (R151). -/
def expandSeed (c : Config) (method : Method) (seed : List Word) (n T : Nat) : Except ErrCode (List Word) :=
  match firstFailing (expandChecks c method n T) with
  | some code => .error code
  | none => expandChunks c method seed n T (expandCount method T) 0

/-- EXPAND over a configuration (R150). WARN is never touched: every inner dispatch has block length 16 (R156). -/
def expandWith (c : Config) (method : Method) (n T : Nat) (s : State) : Out :=
  whenIdle s (.next (s.clearDone.conclude (expandSeed c method s.inWords n T)))

/-- The meaning of EXPAND (R150). -/
def execExpand (method : Method) (n T : Nat) (s : State) : Out := expandWith Config.core method n T s

end Sys2Proof.Machine
end

