-- ==== Sys2Proof/Machine/Transactions.lean ====
section
/-! DEFINITION. The transactions of the Host (45_host_transactions.md R180 to R186) at the register map of
20_memory.md R58, and the one-step effect of any transaction. -/

namespace Sys2Proof.Machine

/-- The registers the Host can reach (R58). -/
inductive Register where
  | cmd
  | status
  | inWord (i : Nat)
  | resWord (i : Nat)
deriving DecidableEq, Repr

/-- The register map (R58), for an address that is a multiple of 4. -/
def registerAt (c : Config) (addr : Nat) : Option Register :=
  if addr = 0x00000 then some .cmd
  else if addr = 0x00004 then some .status
  else if 0x00040 ≤ addr ∧ (addr - 0x00040) / 4 < 16 then some (.inWord ((addr - 0x00040) / 4))
  else if 0x40000 ≤ addr ∧ (addr - 0x40000) / 4 < c.resWords then some (.resWord ((addr - 0x40000) / 4))
  else none

/-- The register a Host access reaches, or why the access is no transaction (R59, log 14). -/
def accessed (c : Config) (addr width : Nat) : Except Refusal Register :=
  if width ≠ 4 then .error (.badWidth width)
  else if addr % 4 ≠ 0 then .error (.misaligned addr)
  else match registerAt c addr with
    | some r => .ok r
    | none => .error (.unmapped addr)

/-- RDIN (R181). -/
def readIn (i : Nat) (s : State) : Out := .next (s.answer (s.inWords.getD i 0))

/-- RDRES (R182). -/
def readRes (i : Nat) (s : State) : Out := .next (s.answer (s.res.getD i 0))

/-- RDSTATUS (R183). -/
def readStatus (s : State) : Out := .next (s.answer s.statusWord)

/-- WRIN (R180). -/
def writeInput (i : Nat) (v : Word) (s : State) : Out := whenIdle s (.next (s.writeIn i v))

/-- WRCMD: decode and run the command in this one step (R184); an illegal word raises E_ILLEGAL (R87). `run` is the
meaning of a command. -/
def writeCommand (run : Instr → State → Out) (w : Word) (s : State) : Out :=
  match decode w with
  | .ok i => run i s
  | .error _ => whenIdle s (.next (s.clearDone.raiseConfig .illegal))

/-- A Host read (R181 to R183, R59). -/
def hostRead (c : Config) (addr width : Nat) (s : State) : Out :=
  match accessed c addr width with
  | .error why => .refused why
  | .ok .cmd => .refused (.wrongDirection addr)
  | .ok .status => readStatus s
  | .ok (.inWord i) => readIn i s
  | .ok (.resWord i) => readRes i s

/-- A Host write (R180, R184, R59). -/
def hostWrite (c : Config) (run : Instr → State → Out) (addr width : Nat) (v : Word) (s : State) : Out :=
  match accessed c addr width with
  | .error why => .refused why
  | .ok .cmd => writeCommand run v s
  | .ok .status => .refused (.wrongDirection addr)
  | .ok (.inWord i) => writeInput i v s
  | .ok (.resWord _) => .refused (.wrongDirection addr)

/-- One transaction, as one atomic step (20_memory.md R62, R63). -/
def transact (c : Config) (run : Instr → State → Out) (t : Transaction) (s : State) : Out :=
  match t with
  | .reset => .next (s.applyReset c)
  | .memRead addr width => hostRead c addr width s
  | .memWrite addr width v => hostWrite c run addr width v s
  | .chunk bytes => chunkWith c bytes s

/-! The transactions under their names of 30_encoding.md R90. -/

/-- WRIN i, v. -/
def Transaction.wrin (i : Nat) (v : Word) : Transaction := .memWrite (0x00040 + 4 * i) 4 v

/-- RDIN i. -/
def Transaction.rdin (i : Nat) : Transaction := .memRead (0x00040 + 4 * i) 4

/-- RDRES i. -/
def Transaction.rdres (i : Nat) : Transaction := .memRead (0x40000 + 4 * i) 4

/-- RDSTATUS. -/
def Transaction.rdstatus : Transaction := .memRead 0x00004 4

/-- WRCMD c: a command word written to CMD. -/
def Transaction.wrcmd (w : Word) : Transaction := .memWrite 0x00000 4 w

end Sys2Proof.Machine
end

