-- ==== Sys2Proof/Machine/Dispatch.lean ====
section
/-! DEFINITION. Which definition is the meaning of which command. -/

namespace Sys2Proof.Machine

def exec (i : Instr) (s : State) : Host.Outcome State Fault Refusal :=
  match i with
  | .cgen L n m => Sys2Proof.Machine.execCgen L n m s
  | .c128 L n m => Sys2Proof.Machine.execC128 L n m s
  | .c256 L n m => Sys2Proof.Machine.execC256 L n m s
  | .c384 L n m => Sys2Proof.Machine.execC384 L n m s
  | .c512 L n m => Sys2Proof.Machine.execC512 L n m s
  | .disp method n m => Sys2Proof.Machine.execDisp method n m s
  | .expand method n T => Sys2Proof.Machine.execExpand method n T s
  | .digest L d => Sys2Proof.Machine.execDigest L d s

end Sys2Proof.Machine
end

