-- ==== Sys2Proof/Machine/Step.lean ====
section
/-! DEFINITION. One step of CORE: the next transaction, or waiting. There is no fetch (10_state.md R27): a command comes to
run because the Host writes it to CMD. -/

namespace Sys2Proof.Machine

/-- The next transaction of the queue happens; with none, the machine waits, unchanged (R222, log 2). -/
def step (s : State) : Host.Outcome State Fault Refusal :=
  match s.pending with
  | [] => .next s
  | t :: rest => transact Config.core exec t { s with pending := rest }

/-- `s` with a write of the command word `w` to CMD as its next transaction (log 16). -/
def State.withFetchWord (s : State) (nbits w : Nat) : State :=
  { s with pending := .wrcmd (BitVec.ofNat 32 (w % 2 ^ nbits)) :: s.pending }

end Sys2Proof.Machine
end

