-- ==== Sys2Proof/Safety.lean ====
section
/-! DEFINITION. What counts as a safe run, the invariant of every reachable state, and the premises the spec lets a claim
assume. -/

namespace Sys2Proof.Machine

/-- A run is good only if it does not end in FAULT (60_exceptions.md R198). -/
abbrev State.Safe (s : State) : Prop := s.st ≠ .fault

/-- The codes a fault entry can leave in ERR (R191). -/
def ErrCode.all : List ErrCode :=
  [.level, .outMin, .outGtIn, .inSize, .outPad, .outCap, .method, .expIn, .expOut, .digestSize, .md4Shape, .illegal]

/-- The invariant of the machine: RES has RES_WORDS Words (10_state.md R22); ERR holds one of the twelve codes in FAULT
and 0 elsewhere (R32, R191); DONE is 0 in STREAM and in FAULT (R29); WARN = 1 only in FAULT (42_dispatch.md R145);
an open digest has a valid size and level and a whole number of bytes counted (44_digest.md R161, R168). -/
structure State.Inv (c : Config) (s : State) : Prop where
  resLength : s.res.length = c.resWords
  errInFault : s.st = .fault → ∃ code : ErrCode, s.err = code.code
  errOutsideFault : s.st ≠ .fault → s.err = 0
  doneOnlyIdle : s.done = true → s.st = .idle
  warnOnlyFault : s.warn = true → s.st = .fault
  digestSize : s.st = .stream → 2 ≤ s.dsize.toNat ∧ s.dsize.toNat ≤ 14
  digestLevel : s.st = .stream → 1 ≤ s.dlevel.toNat ∧ s.dlevel.toNat ≤ 4
  wholeBytes : s.st = .stream → s.bitcnt.toNat % 8 = 0

end Sys2Proof.Machine

namespace Sys2Proof

/-- The permutation premise a claim may assume of SBOX (70_reset_and_hazards.md R226): in each of the 8 tables and 4
byte lanes, the 256 lane values are all of {0, ..., 255}. No rule of CORE checks it. -/
abbrev Config.PermutationPremise (c : Config) : Prop :=
  ∀ t < 8, ∀ j < 4, Function.Bijective fun b : Byte => Machine.laneByte (c.sbox t b) j

end Sys2Proof
end

