-- ==== Sys2Proof/Certificates/Slice0/Obligations.lean ====
section
/-! DEFINITION. The statements for the provers: the rules of spec/ that say what a command, a transaction or the machine
does. `arriving t s` is `s` with transaction `t` next in its queue; `faulted` and `completed` write out the two ends of
a command as 60_exceptions.md R196 and 10_state.md R22, R29 give them. -/

open Sys2Proof Sys2Proof.Machine

namespace Sys2Proof.Statements

/-- The transaction `t` happens next, and then those pending in `s`. -/
def arriving (t : Transaction) (s : State) : State := { s with pending := t :: s.pending }

/-- Fault entry (R196): ST, ERR, DONE and the FatalReport event, and nothing else. -/
def faulted (s : State) (code : ErrCode) : State :=
  { s with st := .fault, err := code.code, done := false, trace := s.trace ++ [.fatalReport code] }

/-- A completed command whose output is `out`: RES[0..|out|-1] and DONE, and nothing else (R22, R29). -/
def completed (s : State) (out : List Word) : State :=
  { s with res := out ++ s.res.drop out.length, done := true }

/-- The padded input block X[0..P-1]: IN[0..n-1], then zeros (R102). -/
def block (s : State) (n P : Nat) : List Word :=
  (List.range P).map fun i => if i < n then s.inp.toList.getD i 0 else 0

/-- Bits 31:28 of a command word (R80). -/
def opBits (w : Word) : Nat := (w.extractLsb' 28 4).toNat

/-- Bits 27:24 of a command word (R80). -/
def selBits (w : Word) : Nat := (w.extractLsb' 24 4).toNat

/-- Bits 23:16 of a command word (R80). -/
def inSizeBits (w : Word) : Nat := (w.extractLsb' 16 8).toNat

/-- Bits 15:0 of a command word (R80). -/
def outSizeBits (w : Word) : Nat := (w.extractLsb' 0 16).toNat

/-- The illegal command words of R87. -/
def IllegalWord (w : Word) : Prop := opBits w = 0 ∨ 9 ≤ opBits w ∨ (opBits w = 8 ∧ inSizeBits w ≠ 0)

/-- The method ids that select an engine (R86): MD4, and Snefru at levels 1 to 4. -/
def KnownMethod (method : Method) : Prop := method = .md4 ∨ ∃ L, 1 ≤ L ∧ L ≤ 4 ∧ method = .snefru L

/-- The Snefru size classes (R120): the variant's command, its least and greatest input size, its output cap. -/
def variants : List ((Nat → Nat → Nat → Instr) × Nat × Nat × Nat) :=
  [(.c128, 1, 4, 2), (.c256, 5, 8, 6), (.c384, 9, 12, 10), (.c512, 13, 16, 14)]

/-- The function of a variant's command, with the same least and greatest input size (R120, R122 to R125). -/
def variantFunctions : List ((Config → Nat → List Word → Nat → Nat → Except ErrCode (List Word)) × Nat × Nat) :=
  [(compress128, 1, 4), (compress256, 5, 8), (compress384, 9, 12), (compress512, 13, 16)]

/-- The staging block of the chunk tagged `off` under EXPAND_SEED_SHIFT = 0: the tag, then seed words 1..n-1, then
zeros (R152). -/
def stagingBlock (s : State) (n off : Nat) : List Word :=
  (List.range 16).map fun i => if i = 0 then BitVec.ofNat 32 off else if i < n then s.inp.toList.getD i 0 else 0

/-- The transactions of a whole streaming digest: DIGEST, the chunks, the empty chunk. -/
def digestRun (L d : Nat) (chunks : List (List Byte)) : List Transaction :=
  .memWrite 0x00000 4 (encode (.digest L d)) :: (chunks.map Transaction.chunk ++ [.chunk []])

end Sys2Proof.Statements

open Sys2Proof.Statements

/-! ### Encoding -/

/-- Every well-formed command is what the decoder reads from its word (R80, R81, R86, R88). -/
def Obligations.DecodeEncodeRoundTrip : Prop :=
  ∀ i : Instr, i.wf = true → decode (encode i) = .ok i

/-- A word that decodes is the word of exactly the command it decodes to, and that command is well formed. -/
def Obligations.EncodeDecodeRoundTrip : Prop :=
  ∀ (w : Word) (i : Instr), decode w = .ok i → i.wf = true ∧ encode i = w

/-- R88, the decoder, case by case over the bits of the word, with SEL as a method id as R86's table has it; an illegal
word decodes to no command, and raises E_ILLEGAL. -/
def Obligations.DecoderFollowsOpcodeMap : Prop :=
  ∀ w : Word,
    let sel := selBits w
    let n := inSizeBits w
    let m := outSizeBits w
    let method : Method := if sel = 8 then .md4 else if 1 ≤ sel ∧ sel ≤ 4 then .snefru sel else .unknown sel
    (opBits w = 1 → decode w = .ok (.cgen sel n m)) ∧
    (opBits w = 2 → decode w = .ok (.c128 sel n m)) ∧
    (opBits w = 3 → decode w = .ok (.c256 sel n m)) ∧
    (opBits w = 4 → decode w = .ok (.c384 sel n m)) ∧
    (opBits w = 5 → decode w = .ok (.c512 sel n m)) ∧
    (opBits w = 6 → decode w = .ok (.disp method n m)) ∧
    (opBits w = 7 → decode w = .ok (.expand method n m)) ∧
    (opBits w = 8 → n = 0 → decode w = .ok (.digest sel m)) ∧
    (IllegalWord w → (∃ e, decode w = .error e) ∧
      ∀ s : State, s.st = .idle → step (arriving (.memWrite 0x00000 4 w) s) = .next (faulted s .illegal))

/-- R87: in IDLE an illegal word written to CMD raises E_ILLEGAL, code 0x0C, and no other word is illegal: every other
word decodes to a command, which then runs. -/
def Obligations.IllegalWordsRaise : Prop :=
  ∀ (w : Word) (s : State), s.st = .idle →
    (IllegalWord w → step (arriving (.memWrite 0x00000 4 w) s) = .next (faulted s .illegal) ∧
      (faulted s .illegal).err = 0x0C) ∧
    (¬ IllegalWord w → ∃ i, i.wf = true ∧ decode w = .ok i ∧ step (arriving (.memWrite 0x00000 4 w) s) = exec i s)

/-- Worked encodings of R92, which the spec derives from R80 and R81, one of each command: a sanity check of the
decoder. -/
def Obligations.WorkedEncodingsDecode : Prop :=
  decode 0x11040002 = .ok (.cgen 1 4 2) ∧ decode 0x21040002 = .ok (.c128 1 4 2) ∧
  decode 0x32050005 = .ok (.c256 2 5 5) ∧ decode 0x430C000A = .ok (.c384 3 12 10) ∧
  decode 0x5410000E = .ok (.c512 4 16 14) ∧ decode 0x62060004 = .ok (.disp (.snefru 2) 6 4) ∧
  decode 0x68100004 = .ok (.disp .md4 16 4) ∧ decode 0x72020014 = .ok (.expand (.snefru 2) 2 20) ∧
  decode 0x82000008 = .ok (.digest 2 8)

/-- R191: the code of each cause. -/
def Obligations.FaultCodesAsListed : Prop :=
  ErrCode.level.code = 0x01 ∧ ErrCode.outMin.code = 0x02 ∧ ErrCode.outGtIn.code = 0x03 ∧
  ErrCode.inSize.code = 0x04 ∧ ErrCode.outPad.code = 0x05 ∧ ErrCode.outCap.code = 0x06 ∧
  ErrCode.method.code = 0x07 ∧ ErrCode.expIn.code = 0x08 ∧ ErrCode.expOut.code = 0x09 ∧
  ErrCode.digestSize.code = 0x0A ∧ ErrCode.md4Shape.code = 0x0B ∧ ErrCode.illegal.code = 0x0C

/-! ### Steps and transactions -/

/-- A command word written to CMD is decoded and run in the one step (R184): the per-command statements reach a run
through this one. -/
def Obligations.StepRunsDecodedCommand : Prop :=
  ∀ (w : Word) (i : Instr) (s : State), decode w = .ok i → step (arriving (.memWrite 0x00000 4 w) s) = exec i s

/-- With no transaction to come the machine waits, unchanged (R222; the stutter is the model's choice, log 2). -/
def Obligations.WaitingChangesNothing : Prop :=
  ∀ s : State, s.pending = [] → step s = .next s

/-- R62 for commands, and R186: outside IDLE no command has a step. The name of the refusal, and that exec makes the test
itself and not only the step, are the model's choice (logs 12, 22). -/
def Obligations.CommandsRefusedOutsideIdle : Prop :=
  ∀ (i : Instr) (s : State), s.st ≠ .idle → exec i s = .refused (.notAccepted s.st)

/-- R180: WRIN stores the Word, in IDLE only, and writes nothing else; an index above 15 is refused in every state.
Outside IDLE WRIN has no step; the name of that refusal is the model's choice (log 12). -/
def Obligations.WriteInputStores : Prop :=
  ∀ (v : Word) (s : State),
    (∀ i : Fin 16,
      (s.st = .idle → step (arriving (.memWrite (0x00040 + 4 * i) 4 v) s) = .next { s with inp := s.inp.set i v }) ∧
      (s.st ≠ .idle → step (arriving (.memWrite (0x00040 + 4 * i) 4 v) s) = .refused (.notAccepted s.st))) ∧
    ∀ i, 16 ≤ i → ∃ r, step (arriving (.memWrite (0x00040 + 4 * i) 4 v) s) = .refused r

/-- R181: RDIN returns IN[i] in every state, and writes nothing (the returned Word goes to `answers`, log 3). -/
def Obligations.ReadInputReturns : Prop :=
  ∀ (i : Fin 16) (s : State),
    step (arriving (.memRead (0x00040 + 4 * i) 4) s) = .next { s with answers := s.answers ++ [s.inp[i]] }

/-- R182: RDRES returns RES[i], for i in 0..RES_WORDS-1, in every state, and writes nothing (the returned Word goes to
`answers`, log 3). -/
def Obligations.ReadResultReturns : Prop :=
  ∀ (i : Nat) (v : Word) (s : State), i < Config.core.resWords → s.res[i]? = some v →
    step (arriving (.memRead (0x40000 + 4 * i) 4) s) = .next { s with answers := s.answers ++ [v] }

/-- R27, R35, R183: the fields of STATUS as RDSTATUS returns it, ST by its three values, in every state and with no
side effect (the returned Word goes to `answers`, log 3). -/
def Obligations.ReadStatusFields : Prop :=
  ∀ s : State, ∃ v : Word,
    step (arriving (.memRead 0x00004 4) s) = .next { s with answers := s.answers ++ [v] } ∧
    v.extractLsb' 0 2 = (match s.st with | .idle => 0 | .stream => 1 | .fault => 2) ∧
    v.getLsbD 2 = s.done ∧ v.getLsbD 3 = s.warn ∧ v.extractLsb' 4 4 = 0 ∧ v.extractLsb' 8 8 = s.err ∧ v.extractLsb' 16 16 = 0

/-- Which Host reads are transactions (R58, R59): 32-bit reads, aligned, of STATUS, IN or RES; every other one is
refused. -/
def Obligations.ReadsAcceptedExactly : Prop :=
  ∀ (addr width : Nat) (s : State),
    ((∃ t, step (arriving (.memRead addr width) s) = .next t) ↔
      width = 4 ∧ addr % 4 = 0 ∧ (addr = 0x00004 ∨ (0x00040 ≤ addr ∧ addr < 0x00080) ∨
        (0x40000 ≤ addr ∧ addr < 0x40000 + 4 * Config.core.resWords))) ∧
    ((¬ ∃ t, step (arriving (.memRead addr width) s) = .next t) →
      ∃ r, step (arriving (.memRead addr width) s) = .refused r)

/-- Which Host writes are transactions (R58, R59, R62): 32-bit writes, aligned, of CMD or IN, in IDLE; every other one
is refused. -/
def Obligations.WritesAcceptedExactly : Prop :=
  ∀ (addr width : Nat) (v : Word) (s : State),
    ((∃ t, step (arriving (.memWrite addr width v) s) = .next t) ↔
      s.st = .idle ∧ width = 4 ∧ addr % 4 = 0 ∧ (addr = 0x00000 ∨ (0x00040 ≤ addr ∧ addr < 0x00080))) ∧
    ((¬ ∃ t, step (arriving (.memWrite addr width v) s) = .next t) →
      ∃ r, step (arriving (.memWrite addr width v) s) = .refused r)

/-- R165 and R62: which byte-source answers are transactions: those in STREAM, of at most 4 * (16 - DSIZE) bytes. -/
def Obligations.ChunksAcceptedExactly : Prop :=
  ∀ (bytes : List Byte) (s : State),
    ((∃ t, step (arriving (.chunk bytes) s) = .next t) ↔
      s.st = .stream ∧ bytes.length ≤ 4 * (16 - s.dsize.toNat)) ∧
    ((¬ ∃ t, step (arriving (.chunk bytes) s) = .next t) → ∃ r, step (arriving (.chunk bytes) s) = .refused r)

/-- R220: RESET is accepted in every state, clears the control state, leaves RES with RES_WORDS words, and does not
erase the trace. -/
def Obligations.ResetClearsControlState : Prop :=
  ∀ s : State, ∃ t, step (arriving .reset s) = .next t ∧ t.st = .idle ∧ t.done = false ∧ t.warn = false ∧
    t.err = 0 ∧ t.res.length = Config.core.resWords ∧ t.trace = s.trace ∧ t.pending = s.pending ∧
    t.answers = s.answers

/-- R41: the values of the state right after reset that the spec gives. -/
def Obligations.ResetValues : Prop :=
  State.reset.st = .idle ∧ State.reset.done = false ∧ State.reset.warn = false ∧ State.reset.err = 0 ∧
  State.reset.trace = [] ∧ State.reset.statusWord = 0

/-! ### Words and the generic core -/

/-- R15: bit i of `ror32(w, s)` is bit (i + s) mod 32 of w, for every amount the core rotates by. -/
def Obligations.RotateRightBits : Prop :=
  ∀ (w : Word) (s i : Nat), s = 8 ∨ s = 16 ∨ s = 24 → i < 32 →
    (ror32 w s).getLsbD i = w.getLsbD ((i + s) % 32)

/-- R105, as the spec derives it from the amounts: the four passes of a round bring a word back to its alignment. -/
def Obligations.RoundRestoresAlignment : Prop :=
  ∀ w : Word, ror32 (ror32 (ror32 (ror32 w (rotAmount 0)) (rotAmount 1)) (rotAmount 2)) (rotAmount 3) = w

/-- R104: the step at position i XORs one entry, of the table 2r + ((i div 2) mod 2) at the low byte of W[i] as it is,
into the two circular neighbours, which are distinct, and changes no other word. -/
def Obligations.SubstitutionStepNeighbours : Prop :=
  ∀ (c : Config) (r P i : Nat) (W : List Word), P = 4 ∨ P = 8 ∨ P = 12 ∨ P = 16 → W.length = P → i < P →
    let e := c.sbox (2 * r + (i / 2) % 2) ((W.getD i 0).extractLsb' 0 8)
    (i + 1) % P ≠ (i + P - 1) % P ∧ (subStep c r P W i).length = P ∧
    ∀ j < P, (subStep c r P W i).getD j 0 =
      if j = (i + 1) % P ∨ j = (i + P - 1) % P then W.getD j 0 ^^^ e else W.getD j 0

/-- R103: rounds in ascending order, each of four passes, each a substitution of positions 0..P-1 in ascending order,
every step seeing those before it, and then the rotation of every word by 16, 8, 16, 24. -/
def Obligations.CoreIsRoundsOfFourPasses : Prop :=
  ∀ (c : Config) (L P : Nat) (X : List Word),
    let sub := fun (r k : Nat) (W : List Word) => (List.range k).foldl (subStep c r P) W
    let rot := fun (s : Nat) (W : List Word) => W.map fun w : Word => (w >>> s) ||| (w <<< (32 - s))
    coreRounds c 0 P X = X ∧
    coreRounds c (L + 1) P X = rot 24 (sub L P (rot 16 (sub L P (rot 8 (sub L P (rot 16 (sub L P
      (coreRounds c L P X)))))))) ∧
    ∀ r k W, sub r 0 W = W ∧ sub r (k + 1) W = subStep c r P (sub r k W) k

/-- R107: a compression at level L, of the generic core or of a variant, reads the tables 0..2L-1 and no others. -/
def Obligations.TablesReadByLevel : Prop :=
  ∀ (c c' : Config) (L n m : Nat) (inp : List Word), (∀ t < 2 * L, ∀ b, c.sbox t b = c'.sbox t b) →
    compressGeneric c L inp n m = compressGeneric c' L inp n m ∧
    ∀ v ∈ variantFunctions, v.1 c L inp n m = v.1 c' L inp n m

/-- R110, which the spec derives from R103, R105 and R106: with all-zero tables the result is the fold of the input with
itself, for every level. -/
def Obligations.ZeroTablesFoldInput : Prop :=
  ∀ (c : Config) (L n m : Nat) (inp : List Word), (∀ t b, c.sbox t b = 0) →
    1 ≤ L → L ≤ 4 → 2 ≤ m → m ≤ n → n ≤ 16 → m + 2 ≤ pad4 n →
    let X := fun i => if i < n then inp.getD i 0 else 0
    compressGeneric c L inp n m = .ok ((List.range m).map fun k => X k ^^^ X (pad4 n - 1 - k))

/-- R109, which the spec derives from R101, R102 and R106, output-length consistency: two valid requests that differ
only in their output sizes agree on the words both produce. -/
def Obligations.OutputLengthConsistency : Prop :=
  ∀ (c : Config) (L n k : Nat) (inp out out' : List Word),
    compressGeneric c L inp n k = .ok out → compressGeneric c L inp n (k + 1) = .ok out' →
    out.length = k ∧ out'.take k = out

/-- R109 again, padding transparency: the input of size n, and the same followed by zeros at size pad4(n), compress
alike. -/
def Obligations.PaddingTransparency : Prop :=
  ∀ (c : Config) (L n m : Nat) (inp out : List Word), compressGeneric c L inp n m = .ok out →
    compressGeneric c L ((List.range (pad4 n)).map fun i => if i < n then inp.getD i 0 else 0) (pad4 n) m = .ok out

/-! ### The compression commands -/

/-- R106 (with R102, R103): CGEN completes on every accepted (L, n, m), with RES[k] = X[k] ^ W[P-1-k] for k in
0..m-1 and DONE = 1, and nothing else changed. -/
def Obligations.GenericCompressionCompletes : Prop :=
  ∀ (L n m : Nat) (s : State), s.st = .idle → 1 ≤ L → L ≤ 4 → 2 ≤ m → m ≤ n → n ≤ 16 → m + 2 ≤ 4 * ((n + 3) / 4) →
    let P := 4 * ((n + 3) / 4)
    let X := block s n P
    let W := coreRounds Config.core L P X
    exec (.cgen L n m) s = .next (completed s ((List.range m).map fun k => X.getD k 0 ^^^ W.getD (P - 1 - k) 0))

/-- R101: the five checks of CGEN, in their order. -/
def Obligations.GenericChecksInOrder : Prop :=
  ∀ (L n m : Nat) (s : State), s.st = .idle →
    let levelOk := ¬ (L = 0 ∨ 2 * L > 8)
    (¬ levelOk → exec (.cgen L n m) s = .next (faulted s .level)) ∧
    (levelOk → m < 2 → exec (.cgen L n m) s = .next (faulted s .outMin)) ∧
    (levelOk → ¬ m < 2 → m > n → exec (.cgen L n m) s = .next (faulted s .outGtIn)) ∧
    (levelOk → ¬ m < 2 → ¬ m > n → n > 16 → exec (.cgen L n m) s = .next (faulted s .inSize)) ∧
    (levelOk → ¬ m < 2 → ¬ m > n → ¬ n > 16 → m + 2 > 4 * ((n + 3) / 4) →
      exec (.cgen L n m) s = .next (faulted s .outPad))

/-- C128, C256, C384, C512 complete on every accepted (L, n, m) (R121, R126): the m words their function gives are
written, DONE is set, and nothing else changes. -/
def Obligations.VariantsComplete : Prop :=
  ∀ (L n m : Nat) (s : State), s.st = .idle → 1 ≤ L → L ≤ 4 → 2 ≤ m → m ≤ n →
    (1 ≤ n → n ≤ 4 → m ≤ 2 → ∃ out, out.length = m ∧ compress128 Config.core L s.inp.toList n m = .ok out ∧
      exec (.c128 L n m) s = .next (completed s out)) ∧
    (5 ≤ n → n ≤ 8 → m ≤ 6 → ∃ out, out.length = m ∧ compress256 Config.core L s.inp.toList n m = .ok out ∧
      exec (.c256 L n m) s = .next (completed s out)) ∧
    (9 ≤ n → n ≤ 12 → m ≤ 10 → ∃ out, out.length = m ∧ compress384 Config.core L s.inp.toList n m = .ok out ∧
      exec (.c384 L n m) s = .next (completed s out)) ∧
    (13 ≤ n → n ≤ 16 → m ≤ 14 → ∃ out, out.length = m ∧ compress512 Config.core L s.inp.toList n m = .ok out ∧
      exec (.c512 L n m) s = .next (completed s out))

/-- R126: the five checks of every variant, in their order, with its size class and cap. -/
def Obligations.VariantChecksInOrder : Prop :=
  ∀ v ∈ variants, ∀ (L n m : Nat) (s : State), s.st = .idle →
    let run := exec (v.1 L n m) s
    let lo := v.2.1
    let hi := v.2.2.1
    let cap := v.2.2.2
    let levelOk := ¬ (L = 0 ∨ 2 * L > 8)
    (¬ levelOk → run = .next (faulted s .level)) ∧
    (levelOk → (n < lo ∨ n > hi) → run = .next (faulted s .inSize)) ∧
    (levelOk → ¬ (n < lo ∨ n > hi) → m > cap → run = .next (faulted s .outCap)) ∧
    (levelOk → ¬ (n < lo ∨ n > hi) → ¬ m > cap → m < 2 → run = .next (faulted s .outMin)) ∧
    (levelOk → ¬ (n < lo ∨ n > hi) → ¬ m > cap → ¬ m < 2 → m > n → run = .next (faulted s .outGtIn))

/-- R127, equivalence: inside its size class a variant faults if and only if the generic core faults, and when neither
faults they return the same words; for every level, output size, input and table set. -/
def Obligations.VariantsEqualGenericCore : Prop :=
  ∀ v ∈ variantFunctions, ∀ (c : Config) (L n m : Nat) (inp : List Word), v.2.1 ≤ n → n ≤ v.2.2 →
    ((∃ e, v.1 c L inp n m = .error e) ↔ (∃ e, compressGeneric c L inp n m = .error e)) ∧
    ∀ out out', v.1 c L inp n m = .ok out → compressGeneric c L inp n m = .ok out' → out = out'

/-! ### The dispatcher -/

/-- DISP completes (R141 to R143): the MD4 route hands the collaborator IN[0..15] and m and returns its m words, and
every accepted Snefru shape gives the m words of its variant. -/
def Obligations.DispatchCompletes : Prop :=
  ∀ s : State, s.st = .idle →
    (∀ m, 1 ≤ m → m ≤ 4 → exec (.disp .md4 16 m) s =
      .next (completed s ((List.range m).map (Config.core.md4c s.inp.toList m)))) ∧
    (∀ L n m, 1 ≤ L → L ≤ 4 → 2 ≤ m → m ≤ n → n ≤ 16 → m + 2 ≤ 4 * ((n + 3) / 4) →
      ∃ out, out.length = m ∧ compressGeneric Config.core L s.inp.toList n m = .ok out ∧
        exec (.disp (.snefru L) n m) s = .next (completed s out))

/-- R143: a Snefru dispatch inside a size class has exactly the outcome of the class's variant, value or fault. -/
def Obligations.DispatchRoutesByLength : Prop :=
  ∀ v ∈ variants, ∀ (L n m : Nat) (s : State), 1 ≤ L → L ≤ 4 → v.2.1 ≤ n → n ≤ v.2.2.1 →
    exec (.disp (.snefru L) n m) s = exec (v.1 L n m) s

/-- R142, the shapes the MD4 port cannot carry, and R146, the unknown methods: E_MD4_SHAPE and E_METHOD, WARN not
touched. -/
def Obligations.DispatchRejects : Prop :=
  ∀ (n m : Nat) (s : State), s.st = .idle →
    (n ≠ 16 ∨ m < 1 ∨ m > 4 → exec (.disp .md4 n m) s = .next (faulted s .md4Shape)) ∧
    (∀ k, exec (.disp (.unknown k) n m) s = .next (faulted s .method)) ∧
    (∀ sel < 16, sel ≠ 8 → ¬ (1 ≤ sel ∧ sel ≤ 4) → exec (.disp (methodOfSel sel) n m) s = .next (faulted s .method))

/-- R144 and R145: a Snefru dispatch of length 0 or above 16 sets WARN, emits WarnEmitted if it was 0, and then faults in
the generic core, with the code of its first failing check. -/
def Obligations.FallbackWarnsThenFaults : Prop :=
  ∀ (L n m : Nat) (s : State), s.st = .idle → 1 ≤ L → L ≤ 4 → (n = 0 ∨ 17 ≤ n) →
    let warned : State :=
      if s.warn then s else { s with warn := true, trace := s.trace ++ [.warnEmitted] }
    exec (.disp (.snefru L) n m) s =
      .next (faulted warned (if m < 2 then .outMin else if m > n then .outGtIn else .inSize))

/-! ### The expander -/

/-- EXPAND completes (R151 to R154): for every known method, a seed of at most 16 words and a total T within RES, word
k of the output is word k mod cout of the chunk tagged cout * (k div cout), a Snefru chunk being 14 words of the
512-variant and an MD4 chunk 4 words of the collaborator, both over the staging block. -/
def Obligations.ExpandCompletes : Prop :=
  ∀ (method : Method) (n T : Nat) (s : State), s.st = .idle → KnownMethod method → n ≤ 16 → T ≤ Config.core.resWords →
    ∃ out : List Word, out.length = T ∧ exec (.expand method n T) s = .next (completed s out) ∧
      ∀ k < T,
        (method = .md4 → out[k]? = some (Config.core.md4c (stagingBlock s n (4 * (k / 4))) 4 (k % 4))) ∧
        (∀ L, method = .snefru L → ∃ chunk,
          compress512 Config.core L (stagingBlock s n (14 * (k / 14))) 16 14 = .ok chunk ∧
          out[k]? = chunk[k % 14]?)

/-- R155: the three checks of EXPAND, in their order. -/
def Obligations.ExpandChecksInOrder : Prop :=
  ∀ (method : Method) (n T : Nat) (s : State), s.st = .idle →
    (¬ KnownMethod method → exec (.expand method n T) s = .next (faulted s .method)) ∧
    (KnownMethod method → n > 16 → exec (.expand method n T) s = .next (faulted s .expIn)) ∧
    (KnownMethod method → ¬ n > 16 → T > Config.core.resWords →
      exec (.expand method n T) s = .next (faulted s .expOut))

/-- R156, which the spec derives from R152: two seeds that differ only in word 0 give the same output. -/
def Obligations.ExpandIgnoresSeedWordZero : Prop :=
  ∀ (method : Method) (n T : Nat) (s t : State) (v : Word), exec (.expand method n T) s = .next t →
    exec (.expand method n T) { s with inp := s.inp.set 0 v } = .next { t with inp := s.inp.set 0 v }

/-! ### The streaming digest -/

/-- R160 and R162: DIGEST completes for every level 1..4 and size 2..14: DONE cleared, parameters latched, CHAIN and
BITCNT zero, ST = STREAM, and nothing else changed. -/
def Obligations.DigestOpens : Prop :=
  ∀ (L d : Nat) (s : State), s.st = .idle → 1 ≤ L → L ≤ 4 → 2 ≤ d → d ≤ 14 →
    ∃ t, exec (.digest L d) s = .next t ∧ t.done = false ∧ t.dsize.toNat = d ∧ t.dlevel.toNat = L ∧
      (∀ i : Fin 16, t.chain[i] = 0) ∧ t.bitcnt = 0 ∧ t.st = .stream ∧
      t.inp = s.inp ∧ t.res = s.res ∧ t.warn = s.warn ∧ t.err = s.err ∧ t.trace = s.trace ∧
      t.pending = s.pending ∧ t.answers = s.answers

/-- R161: the checks of DIGEST, in their order; check 0 is the decoder's. -/
def Obligations.DigestChecksInOrder : Prop :=
  ∀ (L d : Nat) (s : State), s.st = .idle →
    let levelOk := ¬ (L = 0 ∨ 2 * L > 8)
    (d ≥ 16 → exec (.digest L d) s = .next (faulted s .digestSize)) ∧
    (¬ d ≥ 16 → ¬ levelOk → exec (.digest L d) s = .next (faulted s .level)) ∧
    (¬ d ≥ 16 → levelOk → d > 14 → exec (.digest L d) s = .next (faulted s .outCap)) ∧
    (¬ d ≥ 16 → levelOk → ¬ d > 14 → d < 2 → exec (.digest L d) s = .next (faulted s .outMin)) ∧
    ∀ w, opBits w = 8 → inSizeBits w ≠ 0 → step (arriving (.memWrite 0x00000 4 w) s) = .next (faulted s .illegal)

/-- R166, R167, R168 and R169: a chunk of 1 to 4 * (16 - d) bytes. X is CHAIN with the chunk's bytes placed, byte j in
lane j mod 4 of word d + j div 4 and every other lane as it was; BITCNT advances by 8 * nb modulo 2^64; the head
becomes the 512-variant's d words of X and the tail stays X's; nothing else changes. -/
def Obligations.ChunkAbsorbs : Prop :=
  ∀ (bytes : List Byte) (s : State), s.st = .stream → 2 ≤ s.dsize.toNat → s.dsize.toNat ≤ 14 →
    1 ≤ s.dlevel.toNat → s.dlevel.toNat ≤ 4 → bytes ≠ [] → bytes.length ≤ 4 * (16 - s.dsize.toNat) →
    let d := s.dsize.toNat
    ∃ (X ch : Vector Word 16) (out : List Word),
      (∀ (w : Fin 16) (l : Fin 4), X[w].extractLsb' (8 * l) 8 =
        if d ≤ w ∧ 4 * (w - d) + l < bytes.length then bytes.getD (4 * (w - d) + l) 0
        else s.chain[w].extractLsb' (8 * l) 8) ∧
      compress512 Config.core s.dlevel.toNat X.toList 16 d = .ok out ∧ out.length = d ∧
      (∀ k : Fin 16, ch[k] = if k < d then out.getD k 0 else X[k]) ∧
      step (arriving (.chunk bytes) s) = .next { s with
        chain := ch
        bitcnt := BitVec.ofNat 64 (s.bitcnt.toNat + 8 * bytes.length)
        trace := s.trace ++ [.srcRead (16 - d) bytes] }

/-- R168 in two Words: the low word advances modulo 2^32 and its overflow carries into the high word. -/
def Obligations.BitCounterCarries : Prop :=
  ∀ (bytes : List Byte) (s t : State), s.st = .stream → s.dsize.toNat ≤ 14 → 2 ≤ s.dsize.toNat →
    1 ≤ s.dlevel.toNat → s.dlevel.toNat ≤ 4 → bytes ≠ [] → step (arriving (.chunk bytes) s) = .next t →
    let lo := (s.bitcnt.extractLsb' 0 32).toNat
    let hi := (s.bitcnt.extractLsb' 32 32).toNat
    (t.bitcnt.extractLsb' 0 32).toNat = (lo + 8 * bytes.length) % 2 ^ 32 ∧
    (t.bitcnt.extractLsb' 32 32).toNat = if lo + 8 * bytes.length ≥ 2 ^ 32 then (hi + 1) % 2 ^ 32 else hi

/-- R170: the empty chunk. Words 14 and 15 become the high and low halves of BITCNT, the 512-variant's d words go to
RES[0..d-1], ST = IDLE, DONE = 1, and of the rest only the digest's own state, which is discarded, and the trace
change. -/
def Obligations.EmptyChunkFinalizes : Prop :=
  ∀ s : State, s.st = .stream → 2 ≤ s.dsize.toNat → s.dsize.toNat ≤ 14 → 1 ≤ s.dlevel.toNat → s.dlevel.toNat ≤ 4 →
    let d := s.dsize.toNat
    ∃ (Y : Vector Word 16) (out : List Word) (t : State),
      (∀ k : Fin 16, Y[k] = if k = 14 then s.bitcnt.extractLsb' 32 32
        else if k = 15 then s.bitcnt.extractLsb' 0 32 else s.chain[k]) ∧
      compress512 Config.core s.dlevel.toNat Y.toList 16 d = .ok out ∧ out.length = d ∧
      step (arriving (.chunk []) s) = .next t ∧
      t.res = out ++ s.res.drop d ∧ t.st = .idle ∧ t.done = true ∧ t.warn = s.warn ∧ t.err = s.err ∧
      t.inp = s.inp ∧ t.trace = s.trace ++ [.srcRead (16 - d) []] ∧ t.pending = s.pending ∧ t.answers = s.answers

/-- R171, empty input, which the spec derives from R160 and R170: DIGEST followed at once by the empty chunk gives the
512-variant of sixteen zero words, and outside the ranges of level and size DIGEST faults. -/
def Obligations.EmptyInputDigest : Prop :=
  ∀ (L d : Nat) (s : State), s.st = .idle →
    (1 ≤ L → L ≤ 4 → 2 ≤ d → d ≤ 14 → s.pending = digestRun L d [] →
      ∃ (t : State) (out : List Word), core.run 2 s = .next t ∧ t.st = .idle ∧ t.done = true ∧
        compress512 Config.core L (List.replicate 16 0) 16 d = .ok out ∧ t.res.take d = out) ∧
    (¬ (1 ≤ L ∧ L ≤ 4 ∧ 2 ≤ d ∧ d ≤ 14) → ∃ code, exec (.digest L d) s = .next (faulted s code))

/-- R173, which the spec derives from R168: while a digest is open, BITCNT is 8 times the bytes delivered since it was
opened, modulo 2^64. -/
def Obligations.BitCountIsBytesDelivered : Prop :=
  ∀ (L d : Nat) (chunks : List (List Byte)) (s : State), s.st = .idle → 1 ≤ L → L ≤ 4 → 2 ≤ d → d ≤ 14 →
    (∀ b ∈ chunks, b ≠ [] ∧ b.length ≤ 4 * (16 - d)) → s.pending = digestRun L d chunks →
    ∃ t : State, core.run (chunks.length + 1) s = .next t ∧ t.st = .stream ∧
      t.bitcnt = BitVec.ofNat 64 (8 * (chunks.map List.length).sum)

/-- R172, which the spec derives from R165 to R170: the digest is a function of the level, the size and the sequence
of chunks, whatever the machine held before: both runs complete, with the same d words in RES. -/
def Obligations.DigestIsFunctionOfChunks : Prop :=
  ∀ (L d : Nat) (chunks : List (List Byte)) (s s' : State), s.st = .idle → s'.st = .idle →
    1 ≤ L → L ≤ 4 → 2 ≤ d → d ≤ 14 → (∀ b ∈ chunks, b ≠ [] ∧ b.length ≤ 4 * (16 - d)) →
    s.pending = digestRun L d chunks → s'.pending = digestRun L d chunks →
    ∃ t t' : State, core.run (chunks.length + 2) s = .next t ∧ core.run (chunks.length + 2) s' = .next t' ∧
      t.done = true ∧ t'.done = true ∧ t.st = .idle ∧ t'.st = .idle ∧
      (t.res.take d).length = d ∧ t.res.take d = t'.res.take d

/-! ### Frames -/

/-- Frame of CGEN, C128, C256, C384, C512, DISP and EXPAND: IN, the digest's state, the queue, the answers and the draw
counter are unchanged; RES is unchanged from the output size on, and wholly on a fault; ERR, ST and the trace are
unchanged unless the command faults; WARN is unchanged but for DISP's fallback. -/
def Obligations.CompressionCommandsFrame : Prop :=
  ∀ (i : Instr) (m : Nat) (s t : State),
    ((∃ L n, i = .cgen L n m ∨ i = .c128 L n m ∨ i = .c256 L n m ∨ i = .c384 L n m ∨ i = .c512 L n m) ∨
      ∃ method n, i = .disp method n m ∨ i = .expand method n m) →
    exec i s = .next t →
      t.inp = s.inp ∧ t.chain = s.chain ∧ t.bitcnt = s.bitcnt ∧ t.dsize = s.dsize ∧ t.dlevel = s.dlevel ∧
      t.pending = s.pending ∧ t.answers = s.answers ∧ t.draws = s.draws ∧
      (∀ k, m ≤ k → t.res[k]? = s.res[k]?) ∧
      (t.st = .fault → t.res = s.res) ∧
      (t.st ≠ .fault → t.st = s.st ∧ t.err = s.err ∧ t.trace = s.trace ∧ t.warn = s.warn) ∧
      (t.warn ≠ s.warn → ∃ L n, i = .disp (.snefru L) n m ∧ 1 ≤ L ∧ L ≤ 4 ∧ (n = 0 ∨ 17 ≤ n))

/-- Frame of DIGEST: RES, IN, WARN, the queue, the answers and the draw counter are unchanged, and on a fault the
digest's state too. -/
def Obligations.DigestFrame : Prop :=
  ∀ (L d : Nat) (s t : State), exec (.digest L d) s = .next t →
    t.inp = s.inp ∧ t.res = s.res ∧ t.warn = s.warn ∧ t.pending = s.pending ∧ t.answers = s.answers ∧
    t.draws = s.draws ∧
    (t.st = .fault → t.chain = s.chain ∧ t.bitcnt = s.bitcnt ∧ t.dsize = s.dsize ∧ t.dlevel = s.dlevel) ∧
    (t.st ≠ .fault → t.err = s.err ∧ t.trace = s.trace)

/-- Frame of the other transactions: a Host read changes only the answers; of the Host writes that are no command,
each is a WRIN and changes only one word of IN; and a chunk leaves IN, WARN, the queue, the answers and RES from DSIZE
on as they were, an absorbed one all of RES and the parameters too. -/
def Obligations.TransactionsFrame : Prop :=
  ∀ s t : State,
    (∀ addr width, step (arriving (.memRead addr width) s) = .next t → ∃ v, t = { s with answers := s.answers ++ [v] }) ∧
    (∀ addr width v, addr ≠ 0 → step (arriving (.memWrite addr width v) s) = .next t →
      ∃ i : Fin 16, addr = 0x00040 + 4 * i ∧ t = { s with inp := s.inp.set i v }) ∧
    (∀ bytes, step (arriving (.chunk bytes) s) = .next t →
      t.inp = s.inp ∧ t.pending = s.pending ∧ t.answers = s.answers ∧ t.warn = s.warn ∧
      (bytes ≠ [] → t.res = s.res ∧ t.dsize = s.dsize ∧ t.dlevel = s.dlevel) ∧
      (∀ k, s.dsize.toNat ≤ k → t.res[k]? = s.res[k]?))

/-- R21: a command of input size n never reads IN[i] with i ≥ n: two states that agree on IN[0..n-1] and on everything
but IN take the same step, but for IN itself. -/
def Obligations.InputBeyondSizeNotRead : Prop :=
  ∀ (i : Instr) (n : Nat) (s : State) (inp' : Vector Word 16) (t : State),
    ((∃ L m, i = .cgen L n m ∨ i = .c128 L n m ∨ i = .c256 L n m ∨ i = .c384 L n m ∨ i = .c512 L n m) ∨
      ∃ method m, i = .disp method n m ∨ i = .expand method n m) →
    (∀ k : Fin 16, k < n → s.inp[k] = inp'[k]) → exec i s = .next t →
    exec i { s with inp := inp' } = .next { t with inp := inp' }

/-! ### Faults and the whole machine -/

/-- R196: a command that ends in FAULT has done fault entry, and nothing else but DISP's warning: ST, ERR, DONE, one
FatalReport event, and no data. -/
def Obligations.FaultEntryLeavesData : Prop :=
  ∀ (i : Instr) (s t : State), exec i s = .next t → t.st = .fault →
    ∃ code, t = faulted s code ∨
      ((∃ L n m, i = .disp (.snefru L) n m ∧ (n = 0 ∨ 17 ≤ n)) ∧ s.warn = false ∧
        t = faulted { s with warn := true, trace := s.trace ++ [.warnEmitted] } code)

/-- R193, which the spec derives from the rules of the transactions: the only step that enters FAULT is a command word
written to CMD in IDLE; from every state that meets the invariant. -/
def Obligations.OnlyCommandsEnterFault : Prop :=
  ∀ s t : State, s.Inv Config.core → s.st ≠ .fault → step s = .next t → t.st = .fault →
    s.st = .idle ∧ ∃ w rest, s.pending = .memWrite 0x00000 4 w :: rest

/-- R198: FAULT is absorbing. A step that is not RESET leaves ST, ERR and all data as they were; only the answer to a
read and the queue change. -/
def Obligations.FaultIsAbsorbing : Prop :=
  ∀ s t : State, s.st = .fault → step s = .next t → s.pending.head? ≠ some .reset →
    t = { s with pending := t.pending, answers := t.answers } ∧ t.pending = s.pending.tail

/-- R28, which the spec derives from the rules it names: every transfer of ST is one of the table's, by the
transaction the table names; from every state that meets the invariant. -/
def Obligations.SequencerTransfers : Prop :=
  ∀ s t : State, s.Inv Config.core → step s = .next t → t.st ≠ s.st →
    (s.pending.head? = some .reset ∧ t.st = .idle) ∨
    (s.st = .idle ∧ t.st = .stream ∧
      ∃ w L d, s.pending.head? = some (.memWrite 0x00000 4 w) ∧ decode w = .ok (.digest L d)) ∨
    (s.st = .idle ∧ t.st = .fault ∧ ∃ w, s.pending.head? = some (.memWrite 0x00000 4 w)) ∨
    (s.st = .stream ∧ t.st = .idle ∧ s.pending.head? = some (.chunk []))

/-- R30: WARN is set by DISP's fallback and by nothing else, and cleared by nothing but RESET. -/
def Obligations.WarnSetOnlyByFallback : Prop :=
  ∀ s t : State, step s = .next t → t.warn ≠ s.warn →
    (t.warn = true ∧ ∃ w L n m, s.pending.head? = some (.memWrite 0x00000 4 w) ∧
      decode w = .ok (.disp (.snefru L) n m) ∧ (n = 0 ∨ 17 ≤ n)) ∨
    (t.warn = false ∧ s.pending.head? = some .reset)

/-- R40: the trace only grows; a FatalReport is added exactly when FAULT is entered, and a WarnEmitted exactly when WARN
goes from 0 to 1. -/
def Obligations.TraceRecordsFaultsAndWarnings : Prop :=
  ∀ s t : State, step s = .next t →
    s.trace <+: t.trace ∧
    (t.trace.countP fun e => match e with | .fatalReport _ => true | _ => false) =
      (s.trace.countP fun e => match e with | .fatalReport _ => true | _ => false) +
        (if s.st ≠ .fault ∧ t.st = .fault then 1 else 0) ∧
    t.trace.count .warnEmitted = s.trace.count .warnEmitted + (if s.warn = false ∧ t.warn = true then 1 else 0)

/-- Every step keeps the invariant: RES has RES_WORDS words, ERR agrees with ST, DONE only in IDLE, WARN only in FAULT, an
open digest has a valid size, level and bit count. -/
def Obligations.StepKeepsInvariant : Prop :=
  ∀ s t : State, s.Inv Config.core → step s = .next t → t.Inv Config.core

/-- The state after reset meets the invariant. -/
def Obligations.ResetMeetsInvariant : Prop :=
  State.reset.Inv Config.core
end

