-- ==== Sys2Proof/Laws/State.lean ====
section
/-! SUPPORT. One lemma per field per update of State, so that no proof unfolds a record update. -/

namespace Sys2Proof.Machine

variable (s : State)

/-! ### clearDone -/

@[simp] theorem State.clearDone_st : (s.clearDone).st = s.st := rfl
@[simp] theorem State.clearDone_done : (s.clearDone).done = false := rfl
@[simp] theorem State.clearDone_warn : (s.clearDone).warn = s.warn := rfl
@[simp] theorem State.clearDone_err : (s.clearDone).err = s.err := rfl
@[simp] theorem State.clearDone_inp : (s.clearDone).inp = s.inp := rfl
@[simp] theorem State.clearDone_res : (s.clearDone).res = s.res := rfl
@[simp] theorem State.clearDone_chain : (s.clearDone).chain = s.chain := rfl
@[simp] theorem State.clearDone_bitcnt : (s.clearDone).bitcnt = s.bitcnt := rfl
@[simp] theorem State.clearDone_dsize : (s.clearDone).dsize = s.dsize := rfl
@[simp] theorem State.clearDone_dlevel : (s.clearDone).dlevel = s.dlevel := rfl
@[simp] theorem State.clearDone_trace : (s.clearDone).trace = s.trace := rfl
@[simp] theorem State.clearDone_pending : (s.clearDone).pending = s.pending := rfl
@[simp] theorem State.clearDone_answers : (s.clearDone).answers = s.answers := rfl
@[simp] theorem State.clearDone_draws : (s.clearDone).draws = s.draws := rfl

/-! ### writeIn -/

@[simp] theorem State.writeIn_st (i : Nat) (v : Word) : (s.writeIn i v).st = s.st := rfl
@[simp] theorem State.writeIn_done (i : Nat) (v : Word) : (s.writeIn i v).done = s.done := rfl
@[simp] theorem State.writeIn_warn (i : Nat) (v : Word) : (s.writeIn i v).warn = s.warn := rfl
@[simp] theorem State.writeIn_err (i : Nat) (v : Word) : (s.writeIn i v).err = s.err := rfl
@[simp] theorem State.writeIn_inp (i : Nat) (v : Word) : (s.writeIn i v).inp = s.inp.setIfInBounds i v := rfl
@[simp] theorem State.writeIn_res (i : Nat) (v : Word) : (s.writeIn i v).res = s.res := rfl
@[simp] theorem State.writeIn_chain (i : Nat) (v : Word) : (s.writeIn i v).chain = s.chain := rfl
@[simp] theorem State.writeIn_bitcnt (i : Nat) (v : Word) : (s.writeIn i v).bitcnt = s.bitcnt := rfl
@[simp] theorem State.writeIn_dsize (i : Nat) (v : Word) : (s.writeIn i v).dsize = s.dsize := rfl
@[simp] theorem State.writeIn_dlevel (i : Nat) (v : Word) : (s.writeIn i v).dlevel = s.dlevel := rfl
@[simp] theorem State.writeIn_trace (i : Nat) (v : Word) : (s.writeIn i v).trace = s.trace := rfl
@[simp] theorem State.writeIn_pending (i : Nat) (v : Word) : (s.writeIn i v).pending = s.pending := rfl
@[simp] theorem State.writeIn_answers (i : Nat) (v : Word) : (s.writeIn i v).answers = s.answers := rfl
@[simp] theorem State.writeIn_draws (i : Nat) (v : Word) : (s.writeIn i v).draws = s.draws := rfl

/-! ### writeRes -/

@[simp] theorem State.writeRes_st (out : List Word) : (s.writeRes out).st = s.st := rfl
@[simp] theorem State.writeRes_done (out : List Word) : (s.writeRes out).done = s.done := rfl
@[simp] theorem State.writeRes_warn (out : List Word) : (s.writeRes out).warn = s.warn := rfl
@[simp] theorem State.writeRes_err (out : List Word) : (s.writeRes out).err = s.err := rfl
@[simp] theorem State.writeRes_inp (out : List Word) : (s.writeRes out).inp = s.inp := rfl
@[simp] theorem State.writeRes_res (out : List Word) : (s.writeRes out).res = out ++ s.res.drop out.length := rfl
@[simp] theorem State.writeRes_chain (out : List Word) : (s.writeRes out).chain = s.chain := rfl
@[simp] theorem State.writeRes_bitcnt (out : List Word) : (s.writeRes out).bitcnt = s.bitcnt := rfl
@[simp] theorem State.writeRes_dsize (out : List Word) : (s.writeRes out).dsize = s.dsize := rfl
@[simp] theorem State.writeRes_dlevel (out : List Word) : (s.writeRes out).dlevel = s.dlevel := rfl
@[simp] theorem State.writeRes_trace (out : List Word) : (s.writeRes out).trace = s.trace := rfl
@[simp] theorem State.writeRes_pending (out : List Word) : (s.writeRes out).pending = s.pending := rfl
@[simp] theorem State.writeRes_answers (out : List Word) : (s.writeRes out).answers = s.answers := rfl
@[simp] theorem State.writeRes_draws (out : List Word) : (s.writeRes out).draws = s.draws := rfl

/-! ### answer -/

@[simp] theorem State.answer_st (v : Word) : (s.answer v).st = s.st := rfl
@[simp] theorem State.answer_done (v : Word) : (s.answer v).done = s.done := rfl
@[simp] theorem State.answer_warn (v : Word) : (s.answer v).warn = s.warn := rfl
@[simp] theorem State.answer_err (v : Word) : (s.answer v).err = s.err := rfl
@[simp] theorem State.answer_inp (v : Word) : (s.answer v).inp = s.inp := rfl
@[simp] theorem State.answer_res (v : Word) : (s.answer v).res = s.res := rfl
@[simp] theorem State.answer_chain (v : Word) : (s.answer v).chain = s.chain := rfl
@[simp] theorem State.answer_bitcnt (v : Word) : (s.answer v).bitcnt = s.bitcnt := rfl
@[simp] theorem State.answer_dsize (v : Word) : (s.answer v).dsize = s.dsize := rfl
@[simp] theorem State.answer_dlevel (v : Word) : (s.answer v).dlevel = s.dlevel := rfl
@[simp] theorem State.answer_trace (v : Word) : (s.answer v).trace = s.trace := rfl
@[simp] theorem State.answer_pending (v : Word) : (s.answer v).pending = s.pending := rfl
@[simp] theorem State.answer_answers (v : Word) : (s.answer v).answers = s.answers ++ [v] := rfl
@[simp] theorem State.answer_draws (v : Word) : (s.answer v).draws = s.draws := rfl

/-! ### raiseConfig -/

@[simp] theorem State.raiseConfig_st (code : ErrCode) : (s.raiseConfig code).st = .fault := rfl
@[simp] theorem State.raiseConfig_done (code : ErrCode) : (s.raiseConfig code).done = false := rfl
@[simp] theorem State.raiseConfig_warn (code : ErrCode) : (s.raiseConfig code).warn = s.warn := rfl
@[simp] theorem State.raiseConfig_err (code : ErrCode) : (s.raiseConfig code).err = code.code := rfl
@[simp] theorem State.raiseConfig_inp (code : ErrCode) : (s.raiseConfig code).inp = s.inp := rfl
@[simp] theorem State.raiseConfig_res (code : ErrCode) : (s.raiseConfig code).res = s.res := rfl
@[simp] theorem State.raiseConfig_chain (code : ErrCode) : (s.raiseConfig code).chain = s.chain := rfl
@[simp] theorem State.raiseConfig_bitcnt (code : ErrCode) : (s.raiseConfig code).bitcnt = s.bitcnt := rfl
@[simp] theorem State.raiseConfig_dsize (code : ErrCode) : (s.raiseConfig code).dsize = s.dsize := rfl
@[simp] theorem State.raiseConfig_dlevel (code : ErrCode) : (s.raiseConfig code).dlevel = s.dlevel := rfl
@[simp] theorem State.raiseConfig_trace (code : ErrCode) :
    (s.raiseConfig code).trace = s.trace ++ [.fatalReport code] := rfl
@[simp] theorem State.raiseConfig_pending (code : ErrCode) : (s.raiseConfig code).pending = s.pending := rfl
@[simp] theorem State.raiseConfig_answers (code : ErrCode) : (s.raiseConfig code).answers = s.answers := rfl
@[simp] theorem State.raiseConfig_draws (code : ErrCode) : (s.raiseConfig code).draws = s.draws := rfl

/-! ### complete -/

@[simp] theorem State.complete_st (out : List Word) : (s.complete out).st = s.st := rfl
@[simp] theorem State.complete_done (out : List Word) : (s.complete out).done = true := rfl
@[simp] theorem State.complete_warn (out : List Word) : (s.complete out).warn = s.warn := rfl
@[simp] theorem State.complete_err (out : List Word) : (s.complete out).err = s.err := rfl
@[simp] theorem State.complete_inp (out : List Word) : (s.complete out).inp = s.inp := rfl
@[simp] theorem State.complete_res (out : List Word) : (s.complete out).res = out ++ s.res.drop out.length := rfl
@[simp] theorem State.complete_chain (out : List Word) : (s.complete out).chain = s.chain := rfl
@[simp] theorem State.complete_bitcnt (out : List Word) : (s.complete out).bitcnt = s.bitcnt := rfl
@[simp] theorem State.complete_dsize (out : List Word) : (s.complete out).dsize = s.dsize := rfl
@[simp] theorem State.complete_dlevel (out : List Word) : (s.complete out).dlevel = s.dlevel := rfl
@[simp] theorem State.complete_trace (out : List Word) : (s.complete out).trace = s.trace := rfl
@[simp] theorem State.complete_pending (out : List Word) : (s.complete out).pending = s.pending := rfl
@[simp] theorem State.complete_answers (out : List Word) : (s.complete out).answers = s.answers := rfl
@[simp] theorem State.complete_draws (out : List Word) : (s.complete out).draws = s.draws := rfl

/-! ### discardDigest -/

@[simp] theorem State.discardDigest_st : (s.discardDigest).st = s.st := rfl
@[simp] theorem State.discardDigest_done : (s.discardDigest).done = s.done := rfl
@[simp] theorem State.discardDigest_warn : (s.discardDigest).warn = s.warn := rfl
@[simp] theorem State.discardDigest_err : (s.discardDigest).err = s.err := rfl
@[simp] theorem State.discardDigest_inp : (s.discardDigest).inp = s.inp := rfl
@[simp] theorem State.discardDigest_res : (s.discardDigest).res = s.res := rfl
@[simp] theorem State.discardDigest_chain : (s.discardDigest).chain = vec16 (Config.freeChain s.draws) := rfl
@[simp] theorem State.discardDigest_bitcnt : (s.discardDigest).bitcnt = Config.freeBitcnt s.draws := rfl
@[simp] theorem State.discardDigest_dsize : (s.discardDigest).dsize = Config.freeDsize s.draws := rfl
@[simp] theorem State.discardDigest_dlevel : (s.discardDigest).dlevel = Config.freeDlevel s.draws := rfl
@[simp] theorem State.discardDigest_trace : (s.discardDigest).trace = s.trace := rfl
@[simp] theorem State.discardDigest_pending : (s.discardDigest).pending = s.pending := rfl
@[simp] theorem State.discardDigest_answers : (s.discardDigest).answers = s.answers := rfl
@[simp] theorem State.discardDigest_draws : (s.discardDigest).draws = s.draws + 1 := rfl

/-! ### applyReset -/

@[simp] theorem State.applyReset_st (c : Config) : (s.applyReset c).st = .idle := rfl
@[simp] theorem State.applyReset_done (c : Config) : (s.applyReset c).done = false := rfl
@[simp] theorem State.applyReset_warn (c : Config) : (s.applyReset c).warn = false := rfl
@[simp] theorem State.applyReset_err (c : Config) : (s.applyReset c).err = 0 := rfl
@[simp] theorem State.applyReset_inp (c : Config) : (s.applyReset c).inp = vec16 (Config.freeIn s.draws) := rfl
@[simp] theorem State.applyReset_res (c : Config) :
    (s.applyReset c).res = (List.range c.resWords).map (Config.freeRes s.draws) := rfl
@[simp] theorem State.applyReset_chain (c : Config) : (s.applyReset c).chain = vec16 (Config.freeChain s.draws) := rfl
@[simp] theorem State.applyReset_bitcnt (c : Config) : (s.applyReset c).bitcnt = Config.freeBitcnt s.draws := rfl
@[simp] theorem State.applyReset_dsize (c : Config) : (s.applyReset c).dsize = Config.freeDsize s.draws := rfl
@[simp] theorem State.applyReset_dlevel (c : Config) : (s.applyReset c).dlevel = Config.freeDlevel s.draws := rfl
@[simp] theorem State.applyReset_trace (c : Config) : (s.applyReset c).trace = s.trace := rfl
@[simp] theorem State.applyReset_pending (c : Config) : (s.applyReset c).pending = s.pending := rfl
@[simp] theorem State.applyReset_answers (c : Config) : (s.applyReset c).answers = s.answers := rfl
@[simp] theorem State.applyReset_draws (c : Config) : (s.applyReset c).draws = s.draws + 1 := rfl

/-! ### openDigest -/

@[simp] theorem State.openDigest_st (L d : Nat) : (s.openDigest L d).st = .stream := rfl
@[simp] theorem State.openDigest_done (L d : Nat) : (s.openDigest L d).done = s.done := rfl
@[simp] theorem State.openDigest_warn (L d : Nat) : (s.openDigest L d).warn = s.warn := rfl
@[simp] theorem State.openDigest_err (L d : Nat) : (s.openDigest L d).err = s.err := rfl
@[simp] theorem State.openDigest_inp (L d : Nat) : (s.openDigest L d).inp = s.inp := rfl
@[simp] theorem State.openDigest_res (L d : Nat) : (s.openDigest L d).res = s.res := rfl
@[simp] theorem State.openDigest_chain (L d : Nat) : (s.openDigest L d).chain = vec16 fun _ => 0 := rfl
@[simp] theorem State.openDigest_bitcnt (L d : Nat) : (s.openDigest L d).bitcnt = 0 := rfl
@[simp] theorem State.openDigest_dsize (L d : Nat) : (s.openDigest L d).dsize = BitVec.ofNat 4 d := rfl
@[simp] theorem State.openDigest_dlevel (L d : Nat) : (s.openDigest L d).dlevel = BitVec.ofNat 3 L := rfl
@[simp] theorem State.openDigest_trace (L d : Nat) : (s.openDigest L d).trace = s.trace := rfl
@[simp] theorem State.openDigest_pending (L d : Nat) : (s.openDigest L d).pending = s.pending := rfl
@[simp] theorem State.openDigest_answers (L d : Nat) : (s.openDigest L d).answers = s.answers := rfl
@[simp] theorem State.openDigest_draws (L d : Nat) : (s.openDigest L d).draws = s.draws := rfl

/-! ### receive -/

@[simp] theorem State.receive_st (c : Config) (bytes : List Byte) : (s.receive c bytes).st = s.st := rfl
@[simp] theorem State.receive_done (c : Config) (bytes : List Byte) : (s.receive c bytes).done = s.done := rfl
@[simp] theorem State.receive_warn (c : Config) (bytes : List Byte) : (s.receive c bytes).warn = s.warn := rfl
@[simp] theorem State.receive_err (c : Config) (bytes : List Byte) : (s.receive c bytes).err = s.err := rfl
@[simp] theorem State.receive_inp (c : Config) (bytes : List Byte) : (s.receive c bytes).inp = s.inp := rfl
@[simp] theorem State.receive_res (c : Config) (bytes : List Byte) : (s.receive c bytes).res = s.res := rfl
@[simp] theorem State.receive_chain (c : Config) (bytes : List Byte) :
    (s.receive c bytes).chain = placeBytes c.srcByteOrder s.dsize.toNat s.chain 0 bytes := rfl
@[simp] theorem State.receive_bitcnt (c : Config) (bytes : List Byte) :
    (s.receive c bytes).bitcnt = s.bitcnt + BitVec.ofNat 64 (8 * bytes.length) := rfl
@[simp] theorem State.receive_dsize (c : Config) (bytes : List Byte) : (s.receive c bytes).dsize = s.dsize := rfl
@[simp] theorem State.receive_dlevel (c : Config) (bytes : List Byte) : (s.receive c bytes).dlevel = s.dlevel := rfl
@[simp] theorem State.receive_trace (c : Config) (bytes : List Byte) :
    (s.receive c bytes).trace = s.trace ++ [.srcRead s.readWords bytes] := rfl
@[simp] theorem State.receive_pending (c : Config) (bytes : List Byte) :
    (s.receive c bytes).pending = s.pending := rfl
@[simp] theorem State.receive_answers (c : Config) (bytes : List Byte) :
    (s.receive c bytes).answers = s.answers := rfl
@[simp] theorem State.receive_draws (c : Config) (bytes : List Byte) : (s.receive c bytes).draws = s.draws := rfl

/-! ### writeHead -/

@[simp] theorem State.writeHead_st (out : List Word) : (s.writeHead out).st = s.st := rfl
@[simp] theorem State.writeHead_done (out : List Word) : (s.writeHead out).done = s.done := rfl
@[simp] theorem State.writeHead_warn (out : List Word) : (s.writeHead out).warn = s.warn := rfl
@[simp] theorem State.writeHead_err (out : List Word) : (s.writeHead out).err = s.err := rfl
@[simp] theorem State.writeHead_inp (out : List Word) : (s.writeHead out).inp = s.inp := rfl
@[simp] theorem State.writeHead_res (out : List Word) : (s.writeHead out).res = s.res := rfl
@[simp] theorem State.writeHead_chain (out : List Word) :
    (s.writeHead out).chain = vec16 fun k => if k < s.dsize.toNat then out.getD k 0 else s.chain.toList.getD k 0 := rfl
@[simp] theorem State.writeHead_bitcnt (out : List Word) : (s.writeHead out).bitcnt = s.bitcnt := rfl
@[simp] theorem State.writeHead_dsize (out : List Word) : (s.writeHead out).dsize = s.dsize := rfl
@[simp] theorem State.writeHead_dlevel (out : List Word) : (s.writeHead out).dlevel = s.dlevel := rfl
@[simp] theorem State.writeHead_trace (out : List Word) : (s.writeHead out).trace = s.trace := rfl
@[simp] theorem State.writeHead_pending (out : List Word) : (s.writeHead out).pending = s.pending := rfl
@[simp] theorem State.writeHead_answers (out : List Word) : (s.writeHead out).answers = s.answers := rfl
@[simp] theorem State.writeHead_draws (out : List Word) : (s.writeHead out).draws = s.draws := rfl

/-! ### writeLength -/

@[simp] theorem State.writeLength_st : (s.writeLength).st = s.st := rfl
@[simp] theorem State.writeLength_done : (s.writeLength).done = s.done := rfl
@[simp] theorem State.writeLength_warn : (s.writeLength).warn = s.warn := rfl
@[simp] theorem State.writeLength_err : (s.writeLength).err = s.err := rfl
@[simp] theorem State.writeLength_inp : (s.writeLength).inp = s.inp := rfl
@[simp] theorem State.writeLength_res : (s.writeLength).res = s.res := rfl
@[simp] theorem State.writeLength_chain :
    (s.writeLength).chain = (s.chain.set 14 (highWord s.bitcnt)).set 15 (lowWord s.bitcnt) := rfl
@[simp] theorem State.writeLength_bitcnt : (s.writeLength).bitcnt = s.bitcnt := rfl
@[simp] theorem State.writeLength_dsize : (s.writeLength).dsize = s.dsize := rfl
@[simp] theorem State.writeLength_dlevel : (s.writeLength).dlevel = s.dlevel := rfl
@[simp] theorem State.writeLength_trace : (s.writeLength).trace = s.trace := rfl
@[simp] theorem State.writeLength_pending : (s.writeLength).pending = s.pending := rfl
@[simp] theorem State.writeLength_answers : (s.writeLength).answers = s.answers := rfl
@[simp] theorem State.writeLength_draws : (s.writeLength).draws = s.draws := rfl

/-! ### latchWarn -/

@[simp] theorem State.latchWarn_st : s.latchWarn.st = s.st := by unfold State.latchWarn; split <;> rfl
@[simp] theorem State.latchWarn_done : s.latchWarn.done = s.done := by unfold State.latchWarn; split <;> rfl
@[simp] theorem State.latchWarn_warn : s.latchWarn.warn = true := by
  unfold State.latchWarn; split <;> simp_all
@[simp] theorem State.latchWarn_err : s.latchWarn.err = s.err := by unfold State.latchWarn; split <;> rfl
@[simp] theorem State.latchWarn_inp : s.latchWarn.inp = s.inp := by unfold State.latchWarn; split <;> rfl
@[simp] theorem State.latchWarn_res : s.latchWarn.res = s.res := by unfold State.latchWarn; split <;> rfl
@[simp] theorem State.latchWarn_chain : s.latchWarn.chain = s.chain := by unfold State.latchWarn; split <;> rfl
@[simp] theorem State.latchWarn_bitcnt : s.latchWarn.bitcnt = s.bitcnt := by unfold State.latchWarn; split <;> rfl
@[simp] theorem State.latchWarn_dsize : s.latchWarn.dsize = s.dsize := by unfold State.latchWarn; split <;> rfl
@[simp] theorem State.latchWarn_dlevel : s.latchWarn.dlevel = s.dlevel := by unfold State.latchWarn; split <;> rfl
@[simp] theorem State.latchWarn_trace :
    s.latchWarn.trace = if s.warn then s.trace else s.trace ++ [.warnEmitted] := by
  unfold State.latchWarn; split <;> rfl
@[simp] theorem State.latchWarn_pending : s.latchWarn.pending = s.pending := by unfold State.latchWarn; split <;> rfl
@[simp] theorem State.latchWarn_answers : s.latchWarn.answers = s.answers := by unfold State.latchWarn; split <;> rfl
@[simp] theorem State.latchWarn_draws : s.latchWarn.draws = s.draws := by unfold State.latchWarn; split <;> rfl

end Sys2Proof.Machine
end

