-- ==== Sys2Proof/Laws/Ops.lean ====
section
/-! SUPPORT. What the shared operations can do, once each: acceptance, the check tables, the end of a command, the
sixteen-word vectors and RES. -/

namespace Sys2Proof.Machine

/-! ### Acceptance -/

theorem whenIdle_of_idle {s : State} (h : s.st = .idle) (k : Out) : whenIdle s k = k := by
  simp [whenIdle, h]

theorem whenIdle_of_not_idle {s : State} (h : s.st ≠ .idle) (k : Out) :
    whenIdle s k = .refused (.notAccepted s.st) := by
  simp [whenIdle, h]

theorem whenIdle_eq_next {s t : State} {k : Out} (h : whenIdle s k = .next t) : s.st = .idle ∧ k = .next t := by
  unfold whenIdle at h
  split at h
  · exact ⟨‹_›, h⟩
  · cases h

/-! ### Check tables -/

@[simp] theorem firstFailing_nil : firstFailing [] = none := rfl

@[simp] theorem firstFailing_cons (fails : Bool) (code : ErrCode) (rest : List (Bool × ErrCode)) :
    firstFailing ((fails, code) :: rest) = if fails then some code else firstFailing rest := rfl

theorem checked_of_none {checks : List (Bool × ErrCode)} (h : firstFailing checks = none) (out : List Word) :
    checked checks out = .ok out := by
  simp [checked, h]

theorem checked_of_some {checks : List (Bool × ErrCode)} {code : ErrCode} (h : firstFailing checks = some code)
    (out : List Word) : checked checks out = .error code := by
  simp [checked, h]

theorem checked_eq_ok {checks : List (Bool × ErrCode)} {out o : List Word} (h : checked checks out = .ok o) :
    firstFailing checks = none ∧ o = out := by
  unfold checked at h
  split at h
  · cases h
  · injection h with h; exact ⟨‹_›, h.symm⟩

/-- `checked` faults with the first failing check or returns its second argument. -/
theorem checked_cases (checks : List (Bool × ErrCode)) (out : List Word) :
    (∃ code, firstFailing checks = some code ∧ checked checks out = .error code) ∨
      (firstFailing checks = none ∧ checked checks out = .ok out) := by
  cases h : firstFailing checks with
  | some code => exact .inl ⟨code, rfl, checked_of_some h out⟩
  | none => exact .inr ⟨rfl, checked_of_none h out⟩

theorem badLevel_eq_false_iff (L : Nat) : badLevel L = false ↔ 1 ≤ L ∧ L ≤ 4 := by
  simp only [badLevel, Bool.or_eq_false_iff, decide_eq_false_iff_not]
  omega

theorem badLevel_eq_true_iff (L : Nat) : badLevel L = true ↔ (L = 0 ∨ 2 * L > 8) := by
  simp [badLevel]

/-! ### The end of a command -/

@[simp] theorem State.conclude_ok (s : State) (out : List Word) : s.conclude (.ok out) = s.complete out := rfl

@[simp] theorem State.conclude_error (s : State) (code : ErrCode) : s.conclude (.error code) = s.raiseConfig code := rfl

/-- RES from the output size on keeps its words. -/
theorem State.complete_res_beyond (s : State) (out : List Word) {k : Nat} (h : out.length ≤ k) :
    (s.complete out).res[k]? = s.res[k]? := by
  rw [State.complete_res, List.getElem?_append_right h, List.getElem?_drop]
  congr 1; omega

/-- RES below the output size holds the output. -/
theorem State.complete_res_below (s : State) (out : List Word) {k : Nat} (h : k < out.length) :
    (s.complete out).res[k]? = out[k]? := by
  rw [State.complete_res, List.getElem?_append_left h]

theorem State.complete_res_length (s : State) (out : List Word) (h : out.length ≤ s.res.length) :
    (s.complete out).res.length = s.res.length := by
  simp; omega

/-! ### Sixteen words -/

theorem vec16_toList (f : Nat → Word) : (vec16 f).toList = (List.range 16).map f := rfl

theorem vec16_getElem (f : Nat → Word) (i : Nat) (h : i < 16) : (vec16 f)[i] = f i := by
  have key : (vec16 f).toList[i]'(by simpa using h) = f i := by
    simp only [vec16_toList]; simp
  simpa using key

/-! ### The padded input and the fold -/

@[simp] theorem padInput_length (P n : Nat) (inp : List Word) : (padInput P n inp).length = P := by simp [padInput]

theorem padInput_getD {P n : Nat} {inp : List Word} {i : Nat} (h : i < P) :
    (padInput P n inp).getD i 0 = padWord n inp i := by
  simp [padInput, List.getD_eq_getElem?_getD, List.getElem?_map, List.getElem?_range h]

@[simp] theorem foldOutput_length (P m : Nat) (X W : List Word) : (foldOutput P m X W).length = m := by
  simp [foldOutput]

/-- The padded input of a size above 4 words and at most 16 is 4, 8, 12 or 16 words long. -/
theorem pad4_cases {n : Nat} (h₁ : 1 ≤ n) (h₂ : n ≤ 16) : pad4 n = 4 ∨ pad4 n = 8 ∨ pad4 n = 12 ∨ pad4 n = 16 := by
  unfold pad4; omega

end Sys2Proof.Machine
end

