-- ==== Sys2Proof/Laws/Compress.lean ====
section
/-! SUPPORT. The generic core: lengths, one step at a time, and when it answers words. -/

namespace Sys2Proof.Machine

theorem foldl_range_succ {α : Type} (f : α → Nat → α) (a : α) (n : Nat) :
    (List.range (n + 1)).foldl f a = f ((List.range n).foldl f a) n := by
  simp [List.range_succ]

/-- A property every iteration keeps holds after the loop. -/
theorem foldl_range_induct {α : Type} (motive : α → Prop) (f : α → Nat → α) (n : Nat) (a : α) (h₀ : motive a)
    (hs : ∀ b k, k < n → motive b → motive (f b k)) : motive ((List.range n).foldl f a) := by
  induction n with
  | zero => simpa using h₀
  | succ n ih =>
    rw [foldl_range_succ]
    exact hs _ _ (Nat.lt_succ_self n) (ih fun b k hk hb => hs b k (by omega) hb)

/-! ### Lengths -/

@[simp] theorem xorAt_length (W : List Word) (i : Nat) (e : Word) : (xorAt W i e).length = W.length := by simp [xorAt]

@[simp] theorem subStep_length (c : Config) (r P : Nat) (W : List Word) (i : Nat) :
    (subStep c r P W i).length = W.length := by simp [subStep]

@[simp] theorem subPass_length (c : Config) (r P : Nat) (W : List Word) : (subPass c r P W).length = W.length :=
  foldl_range_induct (fun V => V.length = W.length) _ P W rfl fun _ _ _ h => by simpa using h

@[simp] theorem corePass_length (c : Config) (r P : Nat) (W : List Word) (p : Nat) : (corePass c r P W p).length = W.length := by
  simp [corePass]

@[simp] theorem coreRound_length (c : Config) (P : Nat) (W : List Word) (r : Nat) : (coreRound c P W r).length = W.length :=
  foldl_range_induct (fun V => V.length = W.length) _ 4 W rfl fun _ _ _ h => by simpa using h

@[simp] theorem coreRounds_length (c : Config) (L P : Nat) (X : List Word) : (coreRounds c L P X).length = X.length :=
  foldl_range_induct (fun V => V.length = X.length) _ L X rfl fun _ _ _ h => by simpa using h

/-! ### One step -/

theorem xorAt_getD (W : List Word) (i j : Nat) (e : Word) (h : i < W.length) :
    (xorAt W i e).getD j 0 = if j = i then W.getD j 0 ^^^ e else W.getD j 0 := by
  by_cases hij : j = i
  · subst hij; simp [xorAt, List.getD_eq_getElem?_getD, h]
  · simp [xorAt, List.getD_eq_getElem?_getD, List.getElem?_set_ne (Ne.symm hij), hij]

theorem coreRound_eq (c : Config) (P : Nat) (W : List Word) (r : Nat) :
    coreRound c P W r = corePass c r P (corePass c r P (corePass c r P (corePass c r P W 0) 1) 2) 3 := rfl

theorem coreRounds_succ (c : Config) (L P : Nat) (X : List Word) :
    coreRounds c (L + 1) P X = coreRound c P (coreRounds c L P X) L := foldl_range_succ _ _ _

/-! ### Checks and result -/

/-- No check of CompressGeneric fails (R101). -/
theorem genericChecks_none_iff (L n m : Nat) :
    firstFailing (genericChecks L n m) = none ↔
      (1 ≤ L ∧ L ≤ 4) ∧ 2 ≤ m ∧ m ≤ n ∧ n ≤ 16 ∧ m + 2 ≤ pad4 n := by
  rw [← badLevel_eq_false_iff]
  simp only [genericChecks, firstFailing_cons, firstFailing_nil, decide_eq_true_eq]
  split_ifs <;> simp_all; omega

theorem compressGeneric_of_valid {L n m : Nat} (c : Config) (inp : List Word) (hL : 1 ≤ L ∧ L ≤ 4) (h₁ : 2 ≤ m)
    (h₂ : m ≤ n) (h₃ : n ≤ 16) (h₄ : m + 2 ≤ pad4 n) :
    compressGeneric c L inp n m =
      .ok (foldOutput (pad4 n) m (padInput (pad4 n) n inp) (coreRounds c L (pad4 n) (padInput (pad4 n) n inp))) :=
  checked_of_none ((genericChecks_none_iff L n m).2 ⟨hL, h₁, h₂, h₃, h₄⟩) _

/-- What an answer of CompressGeneric says: the request was valid, and the words are the fold's. -/
theorem compressGeneric_eq_ok {c : Config} {L n m : Nat} {inp out : List Word}
    (h : compressGeneric c L inp n m = .ok out) :
    ((1 ≤ L ∧ L ≤ 4) ∧ 2 ≤ m ∧ m ≤ n ∧ n ≤ 16 ∧ m + 2 ≤ pad4 n) ∧ out.length = m ∧
      out = foldOutput (pad4 n) m (padInput (pad4 n) n inp) (coreRounds c L (pad4 n) (padInput (pad4 n) n inp)) := by
  obtain ⟨hv, rfl⟩ := checked_eq_ok h
  exact ⟨(genericChecks_none_iff L n m).1 hv, by simp, rfl⟩

end Sys2Proof.Machine
end

