-- ==== Sys2Proof/Laws/Specialized.lean ====
section
/-! SUPPORT. The specialised compressors: each pass is the generic pass over the block's registers taken in order, and
when a variant answers words. -/

namespace Sys2Proof.Machine

/-- No check of a variant fails (R126). -/
theorem variantChecks_none_iff (lo hi cap L n m : Nat) :
    firstFailing (variantChecks lo hi cap L n m) = none ↔
      (1 ≤ L ∧ L ≤ 4) ∧ (lo ≤ n ∧ n ≤ hi) ∧ m ≤ cap ∧ 2 ≤ m ∧ m ≤ n := by
  rw [← badLevel_eq_false_iff]
  simp only [variantChecks, firstFailing_cons, firstFailing_nil, Bool.or_eq_true, decide_eq_true_eq]
  split_ifs <;> simp_all <;> omega

/-! ### The 128-variant -/

/-- The block registers as a sequence. -/
def Block128.words (b : Block128) : List Word :=
  [b.b0, b.b1, b.b2, b.b3]

/-- A pass of the datapath is the generic pass at P = 4. -/
theorem pass128_words (c : Config) (r p : Nat) (b : Block128) :
    (pass128 (c.sbox (2 * r)) (c.sbox (2 * r + 1)) (rotAmount p) b).words = corePass c r 4 b.words p := by
  obtain ⟨b0, b1, b2, b3⟩ := b
  simp [corePass, subPass, foldl_range_succ, subStep, xorAt, tableIndex, Block128.words, pass128]

@[simp] theorem output128_length (m : Nat) (x b : Block128) : (output128 m x b).length = min m 2 := by
  simp [output128]

theorem compress128_of_valid {L n m : Nat} (c : Config) (inp : List Word) (hL : 1 ≤ L ∧ L ≤ 4) (hn : 1 ≤ n ∧ n ≤ 4)
    (h₁ : m ≤ 2) (h₂ : 2 ≤ m) (h₃ : m ≤ n) :
    compress128 c L inp n m = .ok (output128 m (load128 n inp) (rounds128 c L (load128 n inp))) :=
  checked_of_none ((variantChecks_none_iff 1 4 2 L n m).2 ⟨hL, hn, h₁, h₂, h₃⟩) _

/-- What an answer of the 128-variant says: the request was valid, and the words are its output assignments. -/
theorem compress128_eq_ok {c : Config} {L n m : Nat} {inp out : List Word} (h : compress128 c L inp n m = .ok out) :
    ((1 ≤ L ∧ L ≤ 4) ∧ (1 ≤ n ∧ n ≤ 4) ∧ m ≤ 2 ∧ 2 ≤ m ∧ m ≤ n) ∧ out.length = m ∧
      out = output128 m (load128 n inp) (rounds128 c L (load128 n inp)) := by
  obtain ⟨hc, rfl⟩ := checked_eq_ok h
  have hv := (variantChecks_none_iff 1 4 2 L n m).1 hc
  exact ⟨hv, by simp; omega, rfl⟩

/-! ### The 256-variant -/

/-- The block registers as a sequence. -/
def Block256.words (b : Block256) : List Word :=
  [b.b0, b.b1, b.b2, b.b3, b.b4, b.b5, b.b6, b.b7]

/-- A pass of the datapath is the generic pass at P = 8. -/
theorem pass256_words (c : Config) (r p : Nat) (b : Block256) :
    (pass256 (c.sbox (2 * r)) (c.sbox (2 * r + 1)) (rotAmount p) b).words = corePass c r 8 b.words p := by
  obtain ⟨b0, b1, b2, b3, b4, b5, b6, b7⟩ := b
  simp [corePass, subPass, foldl_range_succ, subStep, xorAt, tableIndex, Block256.words, pass256]

@[simp] theorem output256_length (m : Nat) (x b : Block256) : (output256 m x b).length = min m 6 := by
  simp [output256]

theorem compress256_of_valid {L n m : Nat} (c : Config) (inp : List Word) (hL : 1 ≤ L ∧ L ≤ 4) (hn : 5 ≤ n ∧ n ≤ 8)
    (h₁ : m ≤ 6) (h₂ : 2 ≤ m) (h₃ : m ≤ n) :
    compress256 c L inp n m = .ok (output256 m (load256 n inp) (rounds256 c L (load256 n inp))) :=
  checked_of_none ((variantChecks_none_iff 5 8 6 L n m).2 ⟨hL, hn, h₁, h₂, h₃⟩) _

/-- What an answer of the 256-variant says: the request was valid, and the words are its output assignments. -/
theorem compress256_eq_ok {c : Config} {L n m : Nat} {inp out : List Word} (h : compress256 c L inp n m = .ok out) :
    ((1 ≤ L ∧ L ≤ 4) ∧ (5 ≤ n ∧ n ≤ 8) ∧ m ≤ 6 ∧ 2 ≤ m ∧ m ≤ n) ∧ out.length = m ∧
      out = output256 m (load256 n inp) (rounds256 c L (load256 n inp)) := by
  obtain ⟨hc, rfl⟩ := checked_eq_ok h
  have hv := (variantChecks_none_iff 5 8 6 L n m).1 hc
  exact ⟨hv, by simp; omega, rfl⟩

/-! ### The 384-variant -/

/-- The block registers as a sequence. -/
def Block384.words (b : Block384) : List Word :=
  [b.b0, b.b1, b.b2, b.b3, b.b4, b.b5, b.b6, b.b7, b.b8, b.b9, b.b10, b.b11]

/-- A pass of the datapath is the generic pass at P = 12. -/
theorem pass384_words (c : Config) (r p : Nat) (b : Block384) :
    (pass384 (c.sbox (2 * r)) (c.sbox (2 * r + 1)) (rotAmount p) b).words = corePass c r 12 b.words p := by
  obtain ⟨b0, b1, b2, b3, b4, b5, b6, b7, b8, b9, b10, b11⟩ := b
  simp [corePass, subPass, foldl_range_succ, subStep, xorAt, tableIndex, Block384.words, pass384]

@[simp] theorem output384_length (m : Nat) (x b : Block384) : (output384 m x b).length = min m 10 := by
  simp [output384]

theorem compress384_of_valid {L n m : Nat} (c : Config) (inp : List Word) (hL : 1 ≤ L ∧ L ≤ 4) (hn : 9 ≤ n ∧ n ≤ 12)
    (h₁ : m ≤ 10) (h₂ : 2 ≤ m) (h₃ : m ≤ n) :
    compress384 c L inp n m = .ok (output384 m (load384 n inp) (rounds384 c L (load384 n inp))) :=
  checked_of_none ((variantChecks_none_iff 9 12 10 L n m).2 ⟨hL, hn, h₁, h₂, h₃⟩) _

/-- What an answer of the 384-variant says: the request was valid, and the words are its output assignments. -/
theorem compress384_eq_ok {c : Config} {L n m : Nat} {inp out : List Word} (h : compress384 c L inp n m = .ok out) :
    ((1 ≤ L ∧ L ≤ 4) ∧ (9 ≤ n ∧ n ≤ 12) ∧ m ≤ 10 ∧ 2 ≤ m ∧ m ≤ n) ∧ out.length = m ∧
      out = output384 m (load384 n inp) (rounds384 c L (load384 n inp)) := by
  obtain ⟨hc, rfl⟩ := checked_eq_ok h
  have hv := (variantChecks_none_iff 9 12 10 L n m).1 hc
  exact ⟨hv, by simp; omega, rfl⟩

/-! ### The 512-variant -/

/-- The block registers as a sequence. -/
def Block512.words (b : Block512) : List Word :=
  [b.b0, b.b1, b.b2, b.b3, b.b4, b.b5, b.b6, b.b7, b.b8, b.b9, b.b10, b.b11, b.b12, b.b13, b.b14, b.b15]

/-- A pass of the datapath is the generic pass at P = 16. -/
theorem pass512_words (c : Config) (r p : Nat) (b : Block512) :
    (pass512 (c.sbox (2 * r)) (c.sbox (2 * r + 1)) (rotAmount p) b).words = corePass c r 16 b.words p := by
  obtain ⟨b0, b1, b2, b3, b4, b5, b6, b7, b8, b9, b10, b11, b12, b13, b14, b15⟩ := b
  simp [corePass, subPass, foldl_range_succ, subStep, xorAt, tableIndex, Block512.words, pass512]

@[simp] theorem output512_length (m : Nat) (x b : Block512) : (output512 m x b).length = min m 14 := by
  simp [output512]

theorem compress512_of_valid {L n m : Nat} (c : Config) (inp : List Word) (hL : 1 ≤ L ∧ L ≤ 4) (hn : 13 ≤ n ∧ n ≤ 16)
    (h₁ : m ≤ 14) (h₂ : 2 ≤ m) (h₃ : m ≤ n) :
    compress512 c L inp n m = .ok (output512 m (load512 n inp) (rounds512 c L (load512 n inp))) :=
  checked_of_none ((variantChecks_none_iff 13 16 14 L n m).2 ⟨hL, hn, h₁, h₂, h₃⟩) _

/-- What an answer of the 512-variant says: the request was valid, and the words are its output assignments. -/
theorem compress512_eq_ok {c : Config} {L n m : Nat} {inp out : List Word} (h : compress512 c L inp n m = .ok out) :
    ((1 ≤ L ∧ L ≤ 4) ∧ (13 ≤ n ∧ n ≤ 16) ∧ m ≤ 14 ∧ 2 ≤ m ∧ m ≤ n) ∧ out.length = m ∧
      out = output512 m (load512 n inp) (rounds512 c L (load512 n inp)) := by
  obtain ⟨hc, rfl⟩ := checked_eq_ok h
  have hv := (variantChecks_none_iff 13 16 14 L n m).1 hc
  exact ⟨hv, by simp; omega, rfl⟩

end Sys2Proof.Machine
end

