-- ==== Sys2Proof/Laws/Commands.lean ====
section
/-! SUPPORT. The dispatcher and the expander, and what a command can do: `exec_next_cases` says it once for all eight. -/

namespace Sys2Proof.Machine

/-! ### The dispatcher -/

@[simp] theorem md4Words_length (c : Config) (inp : List Word) (m : Nat) : (md4Words c inp m).length = m := by
  simp [md4Words]

theorem md4Checks_none_iff (n m : Nat) : firstFailing (md4Checks n m) = none ↔ n = 16 ∧ 1 ≤ m ∧ m ≤ 4 := by
  simp only [md4Checks, firstFailing_cons, firstFailing_nil, Bool.or_eq_true, decide_eq_true_eq]
  split_ifs <;> simp <;> omega

theorem snefruRoute_ok_length {c : Config} {L n m : Nat} {inp out : List Word}
    (h : snefruRoute c L inp n m = .ok out) : out.length = m := by
  unfold snefruRoute at h
  split_ifs at h
  · exact (compress128_eq_ok h).2.1
  · exact (compress256_eq_ok h).2.1
  · exact (compress384_eq_ok h).2.1
  · exact (compress512_eq_ok h).2.1
  · exact (compressGeneric_eq_ok h).2.1

/-- A dispatch that answers, answers the words asked for. -/
theorem dispatch_ok_length {c : Config} {method : Method} {n m : Nat} {inp out : List Word}
    (h : dispatch c method inp n m = .ok out) : out.length = m := by
  unfold dispatch at h
  split at h
  · cases h
  · cases method with
    | md4 => obtain ⟨_, rfl⟩ := checked_eq_ok h; simp
    | snefru L => exact snefruRoute_ok_length h
    | unknown k => cases h

/-- A block of 16 words goes to the 512-variant (R143). -/
theorem dispatch_snefru_16 (c : Config) {L : Nat} (hL : unknownMethod (.snefru L) = false) (inp : List Word) (m : Nat) :
    dispatch c (.snefru L) inp 16 m = compress512 c L inp 16 m := by
  simp [dispatch, hL, snefruRoute]

theorem unknownMethod_snefru (L : Nat) : unknownMethod (.snefru L) = false ↔ 1 ≤ L ∧ L ≤ 4 := by
  simp [unknownMethod]

/-! ### The expander -/

theorem expandOut_pos (method : Method) : 0 < expandOut method := by cases method <;> simp [expandOut]

/-- The inner dispatch of EXPAND never faults for a known method (R153). -/
theorem dispatch_chunk (c : Config) {method : Method} (hm : unknownMethod method = false) (stg : List Word) :
    ∃ chunk, dispatch c method stg expandIn (expandOut method) = .ok chunk ∧ chunk.length = expandOut method := by
  cases method with
  | md4 => exact ⟨md4Words c stg 4, by simp [dispatch, hm, md4Checks, expandIn, expandOut, checked], by simp [expandOut]⟩
  | snefru L =>
    have hL := (unknownMethod_snefru L).1 hm
    refine ⟨_, (dispatch_snefru_16 c hm stg 14).trans
      (compress512_of_valid c stg hL (by omega) (by omega) (by omega) (by omega)), ?_⟩
    simp [expandOut]
  | unknown k => cases hm

/-- The loop of EXPAND (R151, R153, R154): it never faults for a known method, makes the words that are still asked for,
and word `j` of them is a word of the chunk whose tag is the offset at which the chunk starts. -/
theorem expandChunks_spec (c : Config) {method : Method} (hm : unknownMethod method = false) (seed : List Word)
    (n T chunks off : Nat) :
    ∃ out, expandChunks c method seed n T chunks off = .ok out ∧
      out.length = min (chunks * expandOut method) (T - off) ∧
      ∀ j < out.length, ∃ chunk,
        dispatch c method (staging c seed n (off + expandOut method * (j / expandOut method))) expandIn
          (expandOut method) = .ok chunk ∧ out[j]? = chunk[j % expandOut method]? := by
  have hpos := expandOut_pos method
  induction chunks generalizing off with
  | zero => exact ⟨[], rfl, by simp, by simp⟩
  | succ k ih =>
    obtain ⟨chunk, hc, hlen⟩ := dispatch_chunk c hm (staging c seed n off)
    obtain ⟨rest, hr, hrlen, hrw⟩ := ih (off + expandOut method)
    refine ⟨chunk.take (T - off) ++ rest, by simp [expandChunks, hc, hr], ?_, ?_⟩
    · simp only [List.length_append, List.length_take, hlen, hrlen, Nat.succ_mul]
      omega
    · intro j hj
      simp only [List.length_append, List.length_take, hlen] at hj
      by_cases hlt : j < expandOut method
      · refine ⟨chunk, by rw [Nat.div_eq_of_lt hlt]; simpa using hc, ?_⟩
        have : j < T - off := by omega
        rw [List.getElem?_append_left (by simp [hlen]; omega), Nat.mod_eq_of_lt hlt, List.getElem?_take_of_lt this]
      · have hge : expandOut method ≤ j := by omega
        have hfull : min (T - off) (expandOut method) = expandOut method := by omega
        obtain ⟨ch, hch, hw⟩ := hrw (j - expandOut method) (by omega)
        have hdiv : j / expandOut method = (j - expandOut method) / expandOut method + 1 := by
          rw [Nat.div_eq_sub_div hpos hge]
        refine ⟨ch, ?_, ?_⟩
        · rw [hdiv, Nat.mul_add, Nat.mul_one, ← hch]; congr 2; omega
        · rw [List.getElem?_append_right (by simp [hlen]; omega), Nat.mod_eq_sub_mod hge, ← hw]
          simp [hlen, hfull]

theorem expandChecks_none_iff (c : Config) (method : Method) (n T : Nat) :
    firstFailing (expandChecks c method n T) = none ↔
      unknownMethod method = false ∧ n + c.seedShift ≤ 16 ∧ T ≤ c.resWords := by
  simp only [expandChecks, expandIn, firstFailing_cons, firstFailing_nil, decide_eq_true_eq]
  split_ifs <;> simp_all

/-- A valid EXPAND makes T words, word k from the chunk tagged cout * (k div cout) (R151 to R154). -/
theorem expandSeed_of_valid (c : Config) {method : Method} (hm : unknownMethod method = false) (seed : List Word)
    {n T : Nat} (hn : n + c.seedShift ≤ 16) (hT : T ≤ c.resWords) :
    ∃ out, expandSeed c method seed n T = .ok out ∧ out.length = T ∧
      ∀ k < T, ∃ chunk,
        dispatch c method (staging c seed n (expandOut method * (k / expandOut method))) expandIn
          (expandOut method) = .ok chunk ∧ out[k]? = chunk[k % expandOut method]? := by
  obtain ⟨out, h, hlen, hw⟩ := expandChunks_spec c hm seed n T (expandCount method T) 0
  have hcount : T ≤ expandCount method T * expandOut method := by
    unfold expandCount
    have hp := expandOut_pos method
    have := Nat.div_add_mod (T + expandOut method - 1) (expandOut method)
    have := Nat.mod_lt (T + expandOut method - 1) hp
    rw [Nat.mul_comm]
    omega
  have hT' : out.length = T := by rw [hlen]; omega
  refine ⟨out, ?_, hT', fun k hk => ?_⟩
  · simp only [expandSeed, (expandChecks_none_iff c method n T).2 ⟨hm, hn, hT⟩]; exact h
  · simpa using hw k (by omega)

theorem expandSeed_ok_length {c : Config} {method : Method} {n T : Nat} {seed out : List Word}
    (h : expandSeed c method seed n T = .ok out) : out.length = T ∧ T ≤ c.resWords := by
  cases hc : firstFailing (expandChecks c method n T) with
  | some code => simp [expandSeed, hc] at h
  | none =>
    obtain ⟨hm, hn, hT⟩ := (expandChecks_none_iff c method n T).1 hc
    obtain ⟨o, ho, hl, _⟩ := expandSeed_of_valid c hm seed hn hT
    rw [ho] at h; injection h with h; subst h
    exact ⟨hl, hT⟩

/-! ### DIGEST -/

theorem digestChecks_none_iff (L d : Nat) :
    firstFailing (digestChecks L d) = none ↔ (1 ≤ L ∧ L ≤ 4) ∧ 2 ≤ d ∧ d ≤ 14 := by
  rw [← badLevel_eq_false_iff]
  simp only [digestChecks, firstFailing_cons, firstFailing_nil, decide_eq_true_eq]
  split_ifs <;> simp_all <;> omega

/-! ### All commands -/

/-- The output size of a command that writes RES in its own step. -/
def outSize : Instr → Nat
  | .cgen _ _ m | .c128 _ _ m | .c256 _ _ m | .c384 _ _ m | .c512 _ _ m => m
  | .disp _ _ m => m
  | .expand _ _ T => T
  | .digest _ _ => 0

/-- Everything a command can do in a step: complete with its output, do fault entry, do DISP's warning and then fault
entry, or open a digest. -/
theorem exec_next_cases {i : Instr} {s t : State} (h : exec i s = .next t) :
    s.st = .idle ∧
    ((∃ out, out.length = outSize i ∧ (out.length ≤ 14 ∨ out.length ≤ Config.core.resWords) ∧
        (∀ L d, i ≠ .digest L d) ∧ t = s.clearDone.complete out) ∨
      (∃ code, t = s.clearDone.raiseConfig code) ∨
      (∃ L n m code, i = .disp (.snefru L) n m ∧ (1 ≤ L ∧ L ≤ 4) ∧ (n = 0 ∨ 17 ≤ n) ∧ s.warn = false ∧
        t = s.clearDone.latchWarn.raiseConfig code) ∨
      ∃ L d, i = .digest L d ∧ (1 ≤ L ∧ L ≤ 4) ∧ (2 ≤ d ∧ d ≤ 14) ∧ t = s.clearDone.openDigest L d) := by
  have simple : ∀ {r : Except ErrCode (List Word)},
      (∀ out, r = .ok out → out.length = outSize i ∧ (out.length ≤ 14 ∨ out.length ≤ Config.core.resWords)) →
      (∀ L d, i ≠ .digest L d) → (Host.Outcome.next (s.clearDone.conclude r) : Out) = .next t →
      (∃ out, out.length = outSize i ∧ (out.length ≤ 14 ∨ out.length ≤ Config.core.resWords) ∧
        (∀ L d, i ≠ .digest L d) ∧ t = s.clearDone.complete out) ∨ ∃ code, t = s.clearDone.raiseConfig code := by
    intro r hr hi ht
    injection ht with ht
    cases r with
    | ok out => exact .inl ⟨out, (hr out rfl).1, (hr out rfl).2, hi, ht.symm⟩
    | error code => exact .inr ⟨code, ht.symm⟩
  cases i with
  | cgen L n m =>
    obtain ⟨hs, h⟩ := whenIdle_eq_next h
    refine ⟨hs, (simple (fun out ho => ?_) (by simp) h).imp_right .inl⟩
    obtain ⟨⟨_, _, _, _, hv⟩, hl, _⟩ := compressGeneric_eq_ok ho
    refine ⟨hl, .inl ?_⟩
    rw [hl]; unfold pad4 at hv; omega
  | c128 L n m =>
    obtain ⟨hs, h⟩ := whenIdle_eq_next h
    refine ⟨hs, (simple (fun out ho => ?_) (by simp) h).imp_right .inl⟩
    obtain ⟨hv, hl, _⟩ := compress128_eq_ok ho
    exact ⟨hl, .inl (by omega)⟩
  | c256 L n m =>
    obtain ⟨hs, h⟩ := whenIdle_eq_next h
    refine ⟨hs, (simple (fun out ho => ?_) (by simp) h).imp_right .inl⟩
    obtain ⟨hv, hl, _⟩ := compress256_eq_ok ho
    exact ⟨hl, .inl (by omega)⟩
  | c384 L n m =>
    obtain ⟨hs, h⟩ := whenIdle_eq_next h
    refine ⟨hs, (simple (fun out ho => ?_) (by simp) h).imp_right .inl⟩
    obtain ⟨hv, hl, _⟩ := compress384_eq_ok ho
    exact ⟨hl, .inl (by omega)⟩
  | c512 L n m =>
    obtain ⟨hs, h⟩ := whenIdle_eq_next h
    refine ⟨hs, (simple (fun out ho => ?_) (by simp) h).imp_right .inl⟩
    obtain ⟨hv, hl, _⟩ := compress512_eq_ok ho
    exact ⟨hl, .inl (by omega)⟩
  | disp method n m =>
    obtain ⟨hs, h⟩ := whenIdle_eq_next h
    refine ⟨hs, ?_⟩
    have hlen : ∀ out, dispatch Config.core method s.inWords n m = .ok out →
        out.length = m ∧ (out.length ≤ 14 ∨ out.length ≤ Config.core.resWords) := by
      intro out ho
      refine ⟨dispatch_ok_length ho, .inl ?_⟩
      unfold dispatch at ho
      split at ho
      · cases ho
      · cases method with
        | md4 =>
          obtain ⟨hc, rfl⟩ := checked_eq_ok ho
          have := (md4Checks_none_iff n m).1 hc
          simp; omega
        | snefru L =>
          unfold snefruRoute at ho
          split_ifs at ho
          · have := compress128_eq_ok ho; omega
          · have := compress256_eq_ok ho; omega
          · have := compress384_eq_ok ho; omega
          · have := compress512_eq_ok ho; omega
          · have := compressGeneric_eq_ok ho; unfold pad4 at this; omega
        | unknown k => cases ho
    by_cases hf : dispatchFallsBack method n = true
    · cases method with
      | md4 => cases hf
      | unknown k => cases hf
      | snefru L =>
        have hn : n = 0 ∨ 17 ≤ n := by
          simp only [dispatchFallsBack, Bool.and_eq_true, Bool.or_eq_true, decide_eq_true_eq] at hf
          exact hf.2
        have hL : 1 ≤ L ∧ L ≤ 4 := by
          rw [← unknownMethod_snefru]
          simp only [dispatchFallsBack, Bool.and_eq_true, Bool.not_eq_true'] at hf
          exact hf.1
        have herr : ∃ code, dispatch Config.core (.snefru L) s.inWords n m = .error code := by
          cases hd : dispatch Config.core (.snefru L) s.inWords n m with
          | error code => exact ⟨code, rfl⟩
          | ok out =>
            exfalso
            rw [dispatch, (unknownMethod_snefru L).2 hL] at hd
            simp only [Bool.false_eq_true, if_false] at hd
            rw [snefruRoute, if_neg (by omega), if_neg (by omega), if_neg (by omega), if_neg (by omega)] at hd
            have := compressGeneric_eq_ok hd
            omega
        obtain ⟨code, he⟩ := herr
        simp only [he, State.warnOnFallback, hf, if_true, State.conclude_error] at h
        injection h with h
        by_cases hw : s.warn = true
        · refine .inr (.inl ⟨code, ?_⟩)
          rw [← h]; simp [State.latchWarn, hw]
        · exact .inr (.inr (.inl ⟨L, n, m, code, rfl, hL, hn, by simpa using hw, h.symm⟩))
    · simp only [State.warnOnFallback, hf] at h
      exact (simple hlen (by simp) h).imp_right .inl
  | expand method n T =>
    obtain ⟨hs, h⟩ := whenIdle_eq_next h
    refine ⟨hs, (simple (fun out ho => ?_) (by simp) h).imp_right .inl⟩
    obtain ⟨hl, hT⟩ := expandSeed_ok_length ho
    exact ⟨hl, .inr (by omega)⟩
  | digest L d =>
    obtain ⟨hs, h⟩ := whenIdle_eq_next h
    refine ⟨hs, .inr ?_⟩
    cases hc : firstFailing (digestChecks L d) with
    | some code =>
      simp only [hc] at h; injection h with h
      exact .inl ⟨code, h.symm⟩
    | none =>
      simp only [hc] at h; injection h with h
      obtain ⟨hL, hd⟩ := (digestChecks_none_iff L d).1 hc
      exact .inr (.inr ⟨L, d, rfl, hL, hd, h.symm⟩)

end Sys2Proof.Machine
end

