-- ==== Sys2Proof/Laws/Digest.lean ====
section
/-! SUPPORT. The streaming digest: where a chunk's bytes land, and what CHUNK does once DIGEST's checks have passed. -/

namespace Sys2Proof.Machine

/-! ### Byte lanes -/

/-- Replacing the byte of lane `l` changes that lane only (44_digest.md R166). -/
theorem setByteAt_lane (w : Word) (b : Byte) {l l' : Nat} (hl : l < 4) (hl' : l' < 4) :
    (setByteAt w (8 * l) b).extractLsb' (8 * l') 8 = if l' = l then b else w.extractLsb' (8 * l') 8 := by
  apply BitVec.eq_of_getLsbD_eq
  intro i hi
  have hff : ∀ k, (0xFF : Word).getLsbD k = decide (k < 8) := by
    intro k
    by_cases hk : k < 32
    · interval_cases k <;> rfl
    · rw [BitVec.getLsbD_of_ge _ _ (by omega)]; simp; omega
  by_cases h : l' = l
  · subst h
    simp only [setByteAt, BitVec.getLsbD_extractLsb', BitVec.getLsbD_or, BitVec.getLsbD_and, BitVec.getLsbD_not,
      BitVec.getLsbD_shiftLeft, BitVec.getLsbD_setWidth, hff, if_true]
    simp [hi, show 8 * l' + i < 32 by omega, show i < 32 by omega]
  · simp only [setByteAt, BitVec.getLsbD_extractLsb', BitVec.getLsbD_or, BitVec.getLsbD_and, BitVec.getLsbD_not,
      BitVec.getLsbD_shiftLeft, BitVec.getLsbD_setWidth, hff, if_neg h]
    have h32 : 8 * l' + i < 32 := by omega
    by_cases hlt : 8 * l' + i < 8 * l
    · simp [hi, h32, hlt]
    · have : ¬ (8 * l' + i - 8 * l < 8) := by omega
      have hb : b.getLsbD (8 * l' + i - 8 * l) = false := BitVec.getLsbD_of_ge _ _ (by omega)
      simp [hi, h32, hlt, this, hb]

theorem toList_getD (v : Vector Word 16) {w : Nat} (hw : w < 16) : v.toList.getD w 0 = v[w] := by
  rw [List.getD_eq_getElem _ _ (by simpa using hw)]
  simp

/-- One byte lands in its lane (44_digest.md R166, low-order byte first). -/
theorem placeByte_lane (d : Nat) (ch : Vector Word 16) (j : Nat) (b : Byte) {w l : Nat} (hw : w < 16) (hl : l < 4) :
    (placeByte .le d ch j b)[w].extractLsb' (8 * l) 8 =
      if w = d + j / 4 ∧ l = j % 4 then b else ch[w].extractLsb' (8 * l) 8 := by
  unfold placeByte
  rw [Vector.getElem_setIfInBounds hw]
  by_cases h : d + j / 4 = w
  · rw [if_pos h, byteShift, setByteAt_lane _ _ (Nat.mod_lt _ (by omega)) hl, h, toList_getD _ hw]
    by_cases hj : l = j % 4 <;> simp [hj]
  · rw [if_neg h, if_neg (by omega)]

/-- The bytes of a chunk land in their lanes, and every other lane keeps its byte (44_digest.md R166, R167). -/
theorem placeBytes_lane (d : Nat) (bytes : List Byte) (ch : Vector Word 16) (j : Nat) {w l : Nat} (hw : w < 16)
    (hl : l < 4) :
    (placeBytes .le d ch j bytes)[w].extractLsb' (8 * l) 8 =
      if d ≤ w ∧ j ≤ 4 * (w - d) + l ∧ 4 * (w - d) + l < j + bytes.length then bytes.getD (4 * (w - d) + l - j) 0
      else ch[w].extractLsb' (8 * l) 8 := by
  induction bytes generalizing ch j with
  | nil =>
    rw [placeBytes, if_neg]
    rw [List.length_nil]; omega
  | cons b bs ih =>
    rw [placeBytes, ih, placeByte_lane d ch j b hw hl]
    by_cases hin : d ≤ w ∧ j + 1 ≤ 4 * (w - d) + l ∧ 4 * (w - d) + l < j + 1 + bs.length
    · rw [if_pos hin, if_pos (by simp; omega)]
      obtain ⟨k, hk⟩ : ∃ k, 4 * (w - d) + l - j = k + 1 := ⟨4 * (w - d) + l - j - 1, by omega⟩
      rw [hk, List.getD_cons_succ]
      congr 1; omega
    · rw [if_neg hin]
      by_cases hb : w = d + j / 4 ∧ l = j % 4
      · rw [if_pos hb, if_pos (by simp; omega), show 4 * (w - d) + l - j = 0 by omega, List.getD_cons_zero]
      · rw [if_neg hb, if_neg (by simp; omega)]

/-! ### CHUNK on an open digest -/

/-- DSIZE and DLEVEL as DIGEST's checks leave them (R161). -/
def State.DigestValid (s : State) : Prop :=
  (2 ≤ s.dsize.toNat ∧ s.dsize.toNat ≤ 14) ∧ 1 ≤ s.dlevel.toNat ∧ s.dlevel.toNat ≤ 4

theorem State.compressChain_of_valid {s : State} (c : Config) (h : s.DigestValid) :
    ∃ out, s.compressChain c = .ok out ∧ out.length = s.dsize.toNat := by
  obtain ⟨⟨h₁, h₂⟩, hL⟩ := h
  have hv := compress512_of_valid (n := 16) c s.chain.toList hL ⟨by omega, le_refl _⟩ h₂ h₁ (by omega)
  exact ⟨_, hv, by simp; omega⟩

/-- An absorbing CHUNK never faults (44_digest.md R169). -/
theorem State.absorb_of_valid {s : State} (c : Config) (bytes : List Byte) (h : s.DigestValid) :
    ∃ out, (s.receive c bytes).compressChain c = .ok out ∧ out.length = s.dsize.toNat ∧
      s.absorb c bytes = (s.receive c bytes).writeHead out := by
  obtain ⟨out, ho, hl⟩ := State.compressChain_of_valid (s := s.receive c bytes) c h
  exact ⟨out, ho, hl, by simp [State.absorb, ho]⟩

/-- A finalizing CHUNK never faults (44_digest.md R170). -/
theorem State.finalize_of_valid {s : State} (c : Config) (h : s.DigestValid) :
    ∃ out, (s.receive c []).writeLength.compressChain c = .ok out ∧ out.length = s.dsize.toNat ∧
      s.finalize c = { ((s.receive c []).writeLength.complete out).discardDigest with st := .idle } := by
  obtain ⟨out, ho, hl⟩ := State.compressChain_of_valid (s := (s.receive c []).writeLength) c h
  exact ⟨out, ho, hl, by simp [State.finalize, ho]⟩

/-- What a CHUNK that happens has done: it absorbed or finalized. -/
theorem chunkWith_eq_next {c : Config} {bytes : List Byte} {s t : State} (h : chunkWith c bytes s = .next t) :
    s.st = .stream ∧ bytes.length ≤ 4 * s.readWords ∧
      ((bytes = [] ∧ t = s.finalize c) ∨ (bytes ≠ [] ∧ t = s.absorb c bytes)) := by
  unfold chunkWith at h
  split_ifs at h with h₁ h₂ h₃
  · injection h with h
    exact ⟨by simpa using h₁, by omega, .inl ⟨by simpa using h₃, h.symm⟩⟩
  · injection h with h
    exact ⟨by simpa using h₁, by omega, .inr ⟨by simpa using h₃, h.symm⟩⟩

end Sys2Proof.Machine
end

