-- ==== Sys2Proof/Laws/PerInstr.lean ====
section
/-! SUPPORT. The fields of every well-formed command's word, one lemma per constructor, as the decoder reads them. -/

namespace Sys2Proof.Laws

/-- The four fields of a packed word (30_encoding.md R80). -/
theorem packCommand_fields {op sel n m : Nat} (hop : op < 16) (hsel : sel < 16) (hn : n < 256) (hm : m < 65536) :
    opField (packCommand op sel n m) = op ∧ selField (packCommand op sel n m) = sel ∧
      inSizeField (packCommand op sel n m) = n ∧ outSizeField (packCommand op sel n m) = m := by
  have hlt : op * 2 ^ 28 + sel * 2 ^ 24 + n * 2 ^ 16 + m < 2 ^ 32 := by omega
  have hnat : (packCommand op sel n m).toNat = op * 2 ^ 28 + sel * 2 ^ 24 + n * 2 ^ 16 + m := by
    rw [packCommand, BitVec.toNat_ofNat, Nat.mod_eq_of_lt hlt]
  refine ⟨?_, ?_, ?_, ?_⟩ <;>
    simp only [opField, selField, inSizeField, outSizeField, BitVec.toNat_ushiftRight, hnat, Nat.shiftRight_eq_div_pow] <;>
    omega

/-- A well-formed method's id is 4 bits wide and names it (R86). -/
theorem methodOfSel_selOfMethod {method : Method} (h : method.wf = true) :
    selOfMethod method < 16 ∧ methodOfSel (selOfMethod method) = method := by
  cases method with
  | md4 => exact ⟨by decide, by decide⟩
  | snefru L =>
    simp only [Method.wf, Bool.and_eq_true, decide_eq_true_eq] at h
    refine ⟨by show L < 16; omega, ?_⟩
    show (if L = 8 then Method.md4 else if 1 ≤ L ∧ L ≤ 4 then .snefru L else .unknown L) = .snefru L
    rw [if_neg (by omega), if_pos h]
  | unknown k =>
    simp only [Method.wf, Bool.and_eq_true, decide_eq_true_eq, bne_iff_ne, Bool.not_eq_true',
      Bool.and_eq_false_iff, decide_eq_false_iff_not] at h
    refine ⟨h.1.1, ?_⟩
    show (if k = 8 then Method.md4 else if 1 ≤ k ∧ k ≤ 4 then .snefru k else .unknown k) = .unknown k
    rw [if_neg h.1.2, if_neg (by omega)]

namespace EncodeFields

/-- SEL, INSIZE and OUTSIZE of a command, and its OP (R81). -/
def fieldsOf : Instr → Nat × Nat × Nat × Nat
  | .cgen L n m => (1, L, n, m)
  | .c128 L n m => (2, L, n, m)
  | .c256 L n m => (3, L, n, m)
  | .c384 L n m => (4, L, n, m)
  | .c512 L n m => (5, L, n, m)
  | .disp method n m => (6, selOfMethod method, n, m)
  | .expand method n T => (7, selOfMethod method, n, T)
  | .digest L d => (8, L, 0, d)

/-- The word of a well-formed command holds exactly its operands, in the fields of R80. -/
def Statement (i : Instr) : Prop :=
  i.wf = true → (opField (encode i), selField (encode i), inSizeField (encode i), outSizeField (encode i)) = fieldsOf i

theorem of_pack {op sel n m : Nat} (hop : op < 16) (hsel : sel < 16) (hn : n < 256) (hm : m < 65536) :
    (opField (packCommand op sel n m), selField (packCommand op sel n m), inSizeField (packCommand op sel n m),
      outSizeField (packCommand op sel n m)) = (op, sel, n, m) := by
  obtain ⟨h₁, h₂, h₃, h₄⟩ := packCommand_fields hop hsel hn hm
  rw [h₁, h₂, h₃, h₄]

theorem of_level {op L n m : Nat} (hop : op < 16) (h : (levelFits L && inSizeFits n && outSizeFits m) = true) :
    (opField (packCommand op L n m), selField (packCommand op L n m), inSizeField (packCommand op L n m),
      outSizeField (packCommand op L n m)) = (op, L, n, m) := by
  simp only [levelFits, inSizeFits, outSizeFits, Bool.and_eq_true, decide_eq_true_eq] at h
  exact of_pack hop h.1.1 h.1.2 h.2

theorem of_method {op n m : Nat} {method : Method} (hop : op < 16)
    (h : (method.wf && inSizeFits n && outSizeFits m) = true) :
    (opField (packCommand op (selOfMethod method) n m), selField (packCommand op (selOfMethod method) n m),
      inSizeField (packCommand op (selOfMethod method) n m), outSizeField (packCommand op (selOfMethod method) n m)) =
      (op, selOfMethod method, n, m) := by
  simp only [inSizeFits, outSizeFits, Bool.and_eq_true, decide_eq_true_eq] at h
  exact of_pack hop (methodOfSel_selOfMethod h.1.1).1 h.1.2 h.2

theorem cgen (L n m : Nat) : Statement (.cgen L n m) := of_level (by decide)

theorem c128 (L n m : Nat) : Statement (.c128 L n m) := of_level (by decide)

theorem c256 (L n m : Nat) : Statement (.c256 L n m) := of_level (by decide)

theorem c384 (L n m : Nat) : Statement (.c384 L n m) := of_level (by decide)

theorem c512 (L n m : Nat) : Statement (.c512 L n m) := of_level (by decide)

theorem disp (method : Method) (n m : Nat) : Statement (.disp method n m) := of_method (by decide)

theorem expand (method : Method) (n T : Nat) : Statement (.expand method n T) := of_method (by decide)

theorem digest (L d : Nat) : Statement (.digest L d) := by
  intro h
  simp only [Instr.wf, levelFits, outSizeFits, Bool.and_eq_true, decide_eq_true_eq] at h
  exact of_pack (by decide) h.1 (by decide) h.2

end EncodeFields

end Sys2Proof.Laws
end

