-- ==== Sys2Proof/Laws/Steps.lean ====
section
/-! SUPPORT. The Host's accesses and the step: `step_next_cases` says once what a step can do. -/

namespace Sys2Proof.Machine

/-! ### Host accesses -/

theorem accessed_of_register {c : Config} {addr : Nat} {r : Register} (ha : addr % 4 = 0)
    (hr : registerAt c addr = some r) : accessed c addr 4 = .ok r := by
  simp [accessed, ha, hr]

theorem accessed_eq_ok {c : Config} {addr width : Nat} {r : Register} (h : accessed c addr width = .ok r) :
    width = 4 ∧ addr % 4 = 0 ∧ registerAt c addr = some r := by
  unfold accessed at h
  split_ifs at h with h₁ h₂
  split at h
  · injection h with h; subst h
    exact ⟨by omega, by omega, ‹_›⟩
  · cases h

theorem registerAt_cmd (c : Config) : registerAt c 0x00000 = some .cmd := rfl

theorem registerAt_status (c : Config) : registerAt c 0x00004 = some .status := rfl

theorem registerAt_in (c : Config) {i : Nat} (h : i < 16) : registerAt c (0x00040 + 4 * i) = some (.inWord i) := by
  unfold registerAt
  rw [if_neg (by omega), if_neg (by omega), if_pos (by omega)]
  congr 2; omega

theorem registerAt_res (c : Config) {i : Nat} (h : i < c.resWords) :
    registerAt c (0x40000 + 4 * i) = some (.resWord i) := by
  unfold registerAt
  rw [if_neg (by omega), if_neg (by omega), if_neg (by omega), if_pos (by omega)]
  congr 2; omega

/-- The register map, read backwards (20_memory.md R58). -/
theorem registerAt_eq_some {c : Config} {addr : Nat} {r : Register} (h : registerAt c addr = some r) :
    (r = .cmd ∧ addr = 0) ∨ (r = .status ∧ addr = 4) ∨
      (∃ i < 16, r = .inWord i ∧ 0x00040 ≤ addr ∧ i = (addr - 0x00040) / 4) ∨
      ∃ i < c.resWords, r = .resWord i ∧ 0x40000 ≤ addr ∧ i = (addr - 0x40000) / 4 := by
  unfold registerAt at h
  split_ifs at h with h₁ h₂ h₃ h₄ <;> injection h with h
  · exact .inl ⟨h.symm, h₁⟩
  · exact .inr (.inl ⟨h.symm, h₂⟩)
  · exact .inr (.inr (.inl ⟨_, h₃.2, h.symm, h₃.1, rfl⟩))
  · exact .inr (.inr (.inr ⟨_, h₄.2, h.symm, h₄.1, rfl⟩))

theorem hostRead_eq_next {c : Config} {addr width : Nat} {s t : State} (h : hostRead c addr width s = .next t) :
    ∃ v, t = s.answer v := by
  unfold hostRead at h
  split at h
  · cases h
  · cases h
  all_goals
    injection h with h
    exact ⟨_, h.symm⟩

theorem hostWrite_eq_next {c : Config} {run : Instr → State → Out} {addr width : Nat} {v : Word} {s t : State}
    (h : hostWrite c run addr width v s = .next t) :
    width = 4 ∧ ((addr = 0 ∧ writeCommand run v s = .next t) ∨
      ∃ i < 16, addr = 0x00040 + 4 * i ∧ s.st = .idle ∧ t = s.writeIn i v) := by
  unfold hostWrite at h
  split at h
  · cases h
  · obtain ⟨hw, -, hr⟩ := accessed_eq_ok ‹_›
    rcases registerAt_eq_some hr with ⟨-, ha⟩ | ⟨hr, -⟩ | ⟨i, -, hr, -⟩ | ⟨i, -, hr, -⟩
    · exact ⟨hw, .inl ⟨ha, h⟩⟩
    all_goals cases hr
  · cases h
  · obtain ⟨hw, ha, hr⟩ := accessed_eq_ok ‹_›
    obtain ⟨hs, h⟩ := whenIdle_eq_next h
    injection h with h
    rcases registerAt_eq_some hr with ⟨hr, -⟩ | ⟨hr, -⟩ | ⟨i, hi, hr, hge, he⟩ | ⟨i, -, hr, -⟩
    · cases hr
    · cases hr
    · cases hr; exact ⟨hw, .inr ⟨_, hi, by omega, hs, h.symm⟩⟩
    · cases hr
  · cases h

/-! ### Commands through CMD -/

theorem writeCommand_of_ok {w : Word} {i : Instr} (h : decode w = .ok i) (run : Instr → State → Out) (s : State) :
    writeCommand run w s = run i s := by simp [writeCommand, h]

theorem writeCommand_of_error {w : Word} {e : DecodeError} (h : decode w = .error e) (run : Instr → State → Out)
    (s : State) : writeCommand run w s = whenIdle s (.next (s.clearDone.raiseConfig .illegal)) := by
  simp [writeCommand, h]

/-! ### The step -/

theorem step_of_pending {s : State} {u : Transaction} {rest : List Transaction} (h : s.pending = u :: rest) :
    step s = transact Config.core exec u { s with pending := rest } := by simp [step, h]

theorem step_of_empty {s : State} (h : s.pending = []) : step s = .next s := by simp [step, h]

theorem transact_reset (c : Config) (run : Instr → State → Out) (s : State) :
    transact c run .reset s = .next (s.applyReset c) := rfl

theorem transact_memRead (c : Config) (run : Instr → State → Out) (addr width : Nat) (s : State) :
    transact c run (.memRead addr width) s = hostRead c addr width s := rfl

theorem transact_memWrite (c : Config) (run : Instr → State → Out) (addr width : Nat) (v : Word) (s : State) :
    transact c run (.memWrite addr width v) s = hostWrite c run addr width v s := rfl

theorem transact_chunk (c : Config) (run : Instr → State → Out) (bytes : List Byte) (s : State) :
    transact c run (.chunk bytes) s = chunkWith c bytes s := rfl

/-- A word written to CMD (20_memory.md R58). -/
theorem hostWrite_cmd (c : Config) (run : Instr → State → Out) (w : Word) (s : State) :
    hostWrite c run 0x00000 4 w s = writeCommand run w s := by
  simp [hostWrite, accessed, registerAt_cmd]

/-- What one transaction can do. -/
theorem transact_next_cases {u : Transaction} {s t : State} (h : transact Config.core exec u s = .next t) :
    (u = .reset ∧ t = s.applyReset Config.core) ∨
    (∃ addr width v, u = .memRead addr width ∧ t = s.answer v) ∨
    (∃ w i, u = .memWrite 0 4 w ∧ decode w = .ok i ∧ exec i s = .next t) ∨
    (∃ w e, u = .memWrite 0 4 w ∧ decode w = .error e ∧ s.st = .idle ∧ t = s.clearDone.raiseConfig .illegal) ∨
    (∃ i v, i < 16 ∧ u = .memWrite (0x00040 + 4 * i) 4 v ∧ s.st = .idle ∧ t = s.writeIn i v) ∨
    (∃ bytes, bytes ≠ [] ∧ u = .chunk bytes ∧ s.st = .stream ∧ bytes.length ≤ 4 * s.readWords ∧
      t = s.absorb Config.core bytes) ∨
    (u = .chunk [] ∧ s.st = .stream ∧ t = s.finalize Config.core) := by
  cases u with
  | reset => injection h with h; exact .inl ⟨rfl, h.symm⟩
  | memRead addr width =>
    obtain ⟨v, hv⟩ := hostRead_eq_next h
    exact .inr (.inl ⟨addr, width, v, rfl, hv⟩)
  | memWrite addr width v =>
    obtain ⟨rfl, ⟨rfl, hc⟩ | ⟨i, hi, rfl, hs, ht⟩⟩ := hostWrite_eq_next h
    · cases hd : decode v with
      | ok i =>
        rw [writeCommand_of_ok hd] at hc
        exact .inr (.inr (.inl ⟨v, i, rfl, hd, hc⟩))
      | error e =>
        rw [writeCommand_of_error hd] at hc
        obtain ⟨hs, hc⟩ := whenIdle_eq_next hc
        injection hc with hc
        exact .inr (.inr (.inr (.inl ⟨v, e, rfl, hd, hs, hc.symm⟩)))
    · exact .inr (.inr (.inr (.inr (.inl ⟨i, v, hi, rfl, hs, ht⟩))))
  | chunk bytes =>
    obtain ⟨hs, hl, ⟨rfl, ht⟩ | ⟨hne, ht⟩⟩ := chunkWith_eq_next h
    · exact .inr (.inr (.inr (.inr (.inr (.inr ⟨rfl, hs, ht⟩)))))
    · exact .inr (.inr (.inr (.inr (.inr (.inl ⟨bytes, hne, rfl, hs, hl, ht⟩)))))

/-- What one step can do: wait, or let the next transaction happen. -/
theorem step_next_cases {s t : State} (h : step s = .next t) :
    (s.pending = [] ∧ t = s) ∨
      ∃ u rest, s.pending = u :: rest ∧ transact Config.core exec u { s with pending := rest } = .next t := by
  cases hp : s.pending with
  | nil => rw [step_of_empty hp] at h; injection h with h; exact .inl ⟨rfl, h.symm⟩
  | cons u rest => rw [step_of_pending hp] at h; exact .inr ⟨u, rest, rfl, h⟩

/-! ### Runs -/

theorem run_next {M : Host.Core} {s t : M.State} (h : M.step s = .next t) (k : Nat) : M.run (k + 1) s = M.run k t := by
  rw [Host.Core.run, h]

theorem core_run_zero (s : State) : core.run 0 s = .next s := rfl

theorem core_run_succ {s t : State} (h : step s = .next t) (k : Nat) : core.run (k + 1) s = core.run k t :=
  run_next (M := core) h k

end Sys2Proof.Machine
end

