-- ==== Sys2Proof/Tests/Slice0.lean ====
section
/-! SUPPORT. Tests of the model, with expected values from spec/95_test_vectors.md under its synthetic tables TS and its MD4
stand-in MD4T, and the witnesses: for each obligation with hypotheses, concrete values that meet them all. -/

open Sys2Proof Sys2Proof.Machine Sys2Proof.Statements

namespace Sys2Proof.Tests

/-! ### The test configuration and a small state -/

/-- TS[t][b]: lane j is ((2j+1) * b + 16 * t + j) mod 256 (spec/95_test_vectors.md 2.1). -/
def tableTS (t : Nat) (b : Byte) : Word :=
  let lane := fun j : Nat => ((2 * j + 1) * b.toNat + 16 * t + j) % 256
  BitVec.ofNat 32 (lane 0 + 2 ^ 8 * lane 1 + 2 ^ 16 * lane 2 + 2 ^ 24 * lane 3)

/-- TS with MD4T and RES_WORDS = 256 (spec/95_test_vectors.md 2.1). -/
def cfgTS : Config where
  sbox := tableTS
  md4c := fun blk _ k => blk.getD k 0 + blk.getD (15 - k) 0 + BitVec.ofNat 32 k
  resWords := 256
  seedShift := 0
  srcByteOrder := .le

/-- ZS, all tables zero (spec/95_test_vectors.md 2.1). -/
def cfgZS : Config := { cfgTS with sbox := fun _ _ => 0 }

/-- A machine with IN = `input`, then 0xEEEEEEEE, and RES all zero. -/
def idleWith (input : List Word) : State where
  st := .idle
  done := true
  warn := false
  err := 0
  inp := vec16 fun i => input.getD i 0xEEEEEEEE
  res := List.replicate 256 0
  chain := vec16 fun _ => 0xDDDDDDDD
  bitcnt := 77
  dsize := 3
  dlevel := 5
  trace := []
  pending := []
  answers := []
  draws := 1

/-- The same machine in IDLE with nothing in IN. -/
def idle : State := idleWith []

/-- An open digest of level 2 and 8 words. -/
def streaming : State :=
  { idle with st := .stream, done := false, dsize := 8, dlevel := 2, chain := vec16 fun _ => 0, bitcnt := 0 }

/-- A machine in FAULT. -/
def faulting : State := { idle with st := .fault, done := false, err := 0x07 }

/-- i16[k] = 0x9E3779B9 * (k + 1) (spec/95_test_vectors.md 2.2). -/
def i16 : List Word := (List.range 16).map fun k => 0x9E3779B9 * BitVec.ofNat 32 (k + 1)

/-- A view of the next state, if there is one. -/
def after {α : Type} (o : Out) (view : State → α) : Option α :=
  match o with
  | .next s => some (view s)
  | .fault _ => none
  | .refused _ => none

/-! ### Well-formed terms: each check refuses an ill-formed one -/

theorem test_wf_level : (Instr.cgen 16 4 2).wf = false ∧ (Instr.digest 16 8).wf = false := by decide
theorem test_wf_insize : (Instr.c128 1 256 2).wf = false ∧ (Instr.disp .md4 256 4).wf = false := by decide
theorem test_wf_outsize : (Instr.c512 1 16 65536).wf = false ∧ (Instr.expand .md4 0 65536).wf = false := by decide
theorem test_wf_snefru : (Instr.disp (.snefru 0) 4 2).wf = false ∧ (Instr.disp (.snefru 5) 4 2).wf = false := by decide
theorem test_wf_unknown :
    (Instr.expand (.unknown 8) 4 2).wf = false ∧ (Instr.expand (.unknown 3) 4 2).wf = false ∧
      (Instr.expand (.unknown 16) 4 2).wf = false := by decide

/-! ### Decoding: words written out field by field, OP SEL INSIZE OUTSIZE (R80, R81) -/

theorem test_decode_cgen : decode 0b0001_0001_00000100_0000000000000010#32 = .ok (.cgen 1 4 2) := by rfl
theorem test_decode_c128 : decode 0b0010_0001_00000100_0000000000000010#32 = .ok (.c128 1 4 2) := by rfl
theorem test_decode_c256 : decode 0b0011_0010_00000101_0000000000000101#32 = .ok (.c256 2 5 5) := by rfl
theorem test_decode_c384 : decode 0b0100_0011_00001100_0000000000001010#32 = .ok (.c384 3 12 10) := by rfl
theorem test_decode_c512 : decode 0b0101_0100_00010000_0000000000001110#32 = .ok (.c512 4 16 14) := by rfl
theorem test_decode_disp : decode 0b0110_0010_00000110_0000000000000100#32 = .ok (.disp (.snefru 2) 6 4) := by rfl
theorem test_decode_disp_md4 : decode 0b0110_1000_00010000_0000000000000100#32 = .ok (.disp .md4 16 4) := by rfl
theorem test_decode_expand : decode 0b0111_0010_00000010_0000000000010100#32 = .ok (.expand (.snefru 2) 2 20) := by rfl
theorem test_decode_digest : decode 0b1000_0010_00000000_0000000000001000#32 = .ok (.digest 2 8) := by rfl
theorem test_decode_reserved_low :
    decode 0b0000_0001_00000100_0000000000000010#32 = .error (.reservedOpcode 0) := by rfl
theorem test_decode_reserved_high :
    decode 0b1001_0001_00000100_0000000000000010#32 = .error (.reservedOpcode 9) := by rfl
theorem test_decode_digest_insize :
    decode 0b1000_0010_00000001_0000000000001000#32 = .error (.digestInSize 1) := by rfl

theorem test_encode_disp : encode (.disp (.unknown 12) 16 4) = 0x6C100004 := by decide
theorem test_tableWord_expand : decodeTableWord 32 0x72020014 = some (.expand (.snefru 2) 2 20) := by decide
theorem test_tableWord_illegal : decodeTableWord 32 0x90000000 = none := by decide

/-! ### Operators -/

theorem test_ror32 : ror32 0x11223344 8 = 0x44112233 := by decide
theorem test_laneByte : laneByte 0x11223344 3 = 0x11 := by decide
theorem test_setByteAt : setByteAt 0x11223344 16 0xAB = 0x11AB3344 := by decide
theorem test_statusWord_fault : State.statusWord { faulting with warn := true, err := 0x04 } = 0x0000040A := by decide
theorem test_byteOrder_be : (placeBytes .be 8 (vec16 fun _ => 0) 0 [0x61, 0x62, 0x63])[8] = 0x61626300 := by decide

/-! ### The commands, on the vectors of the spec -/

/-- Vector G2. -/
theorem test_cgen_G2 :
    after (cgenWith cfgTS 2 5 5 (idleWith [0x11111111, 0x22222222, 0x33333333, 0x44444444, 0x55555555]))
        (fun s => (s.res.take 6, s.done)) =
      some ([0x69C5B14D, 0xDBAF9F03, 0x17CFFF97, 0x20587CFC, 0x2C208064, 0], true) := by decide +kernel

/-- GF table: level 5 is checked first. -/
theorem test_cgen_level : after (cgenWith cfgTS 5 0 1 idle) (fun s => (s.st, s.err, s.done, s.trace)) =
    some (.fault, 0x01, false, [.fatalReport .level]) := by decide +kernel

/-- Vector G1, through the 128-variant (V1). -/
theorem test_c128_V1 :
    after (c128With cfgTS 1 4 2 (idleWith [1, 2, 3, 4])) (fun s => s.res.take 3) =
      some [0xA9150DBC, 0x7ED67ADB, 0] := by decide +kernel

/-- VF table. -/
theorem test_c128_cap : after (c128With cfgTS 1 4 3 idle) (fun s => s.err) = some 0x06 := by decide +kernel

/-- Vector G2, through the 256-variant. -/
theorem test_c256 :
    after (c256With cfgTS 2 5 5 (idleWith [0x11111111, 0x22222222, 0x33333333, 0x44444444, 0x55555555]))
        (fun s => s.res.take 5) =
      some [0x69C5B14D, 0xDBAF9F03, 0x17CFFF97, 0x20587CFC, 0x2C208064] := by decide +kernel

/-- The 384-variant on the words 0x01020304 * (k + 1). -/
theorem test_c384 :
    after (c384With cfgTS 3 12 10 (idleWith ((List.range 12).map fun k => 0x01020304 * BitVec.ofNat 32 (k + 1))))
        (fun s => s.res.take 11) =
      some [0x8211485F, 0x7221ECD7, 0xAEE9A0EF, 0x459E1F80, 0xAFCC0956, 0xA6CD6853, 0x260D1873, 0x259ED788,
        0xDFC011B2, 0x768DD8DB, 0] := by decide +kernel

/-- The 512-variant at level 4 on i16. -/
theorem test_c512 :
    after (c512With cfgTS 4 16 14 (idleWith i16)) (fun s => s.res.take 14) =
      some [0xA72EAC6B, 0x901F6790, 0xC007E418, 0x252D890C, 0xB39ACE4B, 0x6BFC1EC3, 0xD2612202, 0x93D9DBAC,
        0x0AD486ED, 0x8C570828, 0xAED9AF0A, 0x9D7CE4C1, 0x5545C15C, 0x2F686B67] := by decide +kernel

/-- Vector DS1: six words go to the 256-variant. -/
theorem test_disp_DS1 :
    after (dispWith cfgTS (.snefru 2) 6 4 (idleWith i16)) (fun s => (s.res.take 5, s.warn)) =
      some ([0x6DE012D6, 0x55E7063F, 0xAC2D945A, 0x4B4C2A15, 0], false) := by decide +kernel

/-- Program PR4: seventeen words warn and then fault in the generic core. -/
theorem test_disp_fallback :
    after (dispWith cfgTS (.snefru 3) 17 2 idle) (fun s => (s.statusWord, s.trace)) =
      some (0x0000040A, [.warnEmitted, .fatalReport .inSize]) := by decide +kernel

/-- Vector X1. -/
theorem test_expand_X1 :
    after (expandWith cfgTS (.snefru 2) 2 20 (idleWith [0xDEADBEEF, 0x12345678])) (fun s => s.res.take 21) =
      some [0xAA068E6A, 0xE02638CE, 0x74ECDC64, 0x22BE4E4A, 0xC040F090, 0x8A0A1E86, 0xB45CF46C, 0x38285848,
        0x0060C0C0, 0xC040C040, 0xC0E0C000, 0x80808080, 0x80A00040, 0x8040C080, 0x5AD6463C, 0x309EB0CE,
        0x4474E4E4, 0x38F02830, 0x2A9E2E22, 0xAA5E9EF2, 0] := by decide +kernel

/-- The same seed under MD4T. -/
theorem test_expand_md4 :
    after (expandWith cfgTS .md4 3 6 (idleWith [1, 2, 3])) (fun s => s.res.take 7) = some [0, 3, 5, 3, 4, 3, 0] := by
  decide +kernel

theorem test_digest_open :
    after (execDigest 2 8 idle) (fun s => (s.st, s.done, s.dsize, s.dlevel, s.bitcnt)) =
      some (.stream, false, 8, 2, 0) := by decide

/-- H6: the size is checked before the level. -/
theorem test_digest_size : after (execDigest 9 200 idle) (fun s => s.err) = some 0x0A := by decide

/-! ### The digest's chunks -/

/-- Vector H2, the chunk 61 62 63: CHAIN, the bit counter and the trace. -/
theorem test_chunk_H2 :
    after (chunkWith cfgTS [0x61, 0x62, 0x63] streaming) (fun s => (s.chain.toList, s.bitcnt, s.trace)) =
      some ([0x5818E080, 0x0060E0E0, 0x7070B0F0, 0xE0A080A0, 0x10B09050, 0x00C0C0C0, 0xB0D0F0D0, 0xE601C07F,
        0x00636261, 0, 0, 0, 0, 0, 0, 0], 24, [.srcRead 8 [0x61, 0x62, 0x63]]) := by decide +kernel

/-- Vector H1, the empty input. -/
theorem test_chunk_H1 :
    after (chunkWith cfgTS [] { streaming with dsize := 2, dlevel := 1 })
        (fun s => (s.res.take 3, s.st, s.done)) =
      some ([0x10705030, 0xC0C040C0, 0], .idle, true) := by decide +kernel

/-- Vector H7: the carry into the high word. -/
theorem test_chunk_H7 :
    (State.receive cfgTS { streaming with dsize := 2, bitcnt := 0xFFFFFF00 } (List.replicate 56 0)).bitcnt =
      0x00000001000000C0 := by decide

/-! ### Host transactions and RESET -/

theorem test_rdres_last : after (hostRead cfgTS 0x403FC 4 (idleWith [])) (fun s => s.answers) = some [0] := by decide
theorem test_rdres_beyond : after (hostRead cfgTS 0x40400 4 idle) (fun _ => ()) = none := by decide
theorem test_rdin_15 : after (hostRead cfgTS 0x0007C 4 idle) (fun s => s.answers) = some [0xEEEEEEEE] := by decide
theorem test_status_not_writable : after (hostWrite cfgTS exec 0x00004 4 0 idle) (fun _ => ()) = none := by decide
theorem test_wrin_in_stream : after (hostWrite cfgTS exec 0x00040 4 1 streaming) (fun _ => ()) = none := by decide
theorem test_reset_leaves_fault :
    after (transact Config.core exec .reset faulting) (fun s => (s.st, s.err, s.done, s.warn)) =
      some (.idle, 0, false, false) := by decide
theorem test_fetch_runs_digest :
    after (step (State.reset.withFetchWord 32 0x82000008)) (fun s => (s.st, s.dsize, s.dlevel)) =
      some (.stream, 8, 2) := by decide
theorem test_fetch_illegal :
    after (step (State.reset.withFetchWord 32 0xF0000000)) (fun s => (s.st, s.err)) = some (.fault, 0x0C) := by decide

/-! ### Witnesses: encoding -/

theorem witness_DecodeEncodeRoundTrip :
    (∀ i ∈ [Instr.cgen 15 255 65535, .c128 0 0 0, .c256 15 255 65535, .c384 15 255 65535, .c512 15 255 65535,
      .disp .md4 255 65535, .disp (.snefru 1) 0 0, .disp (.snefru 4) 255 65535, .disp (.unknown 15) 0 0,
      .expand (.unknown 0) 255 65535, .expand (.unknown 9) 255 65535, .digest 15 65535], i.wf = true) := by decide

theorem witness_EncodeDecodeRoundTrip : decode 0x8F00FFFF = .ok (.digest 15 65535) := by rfl

theorem witness_DecoderFollowsOpcodeMap :
    opBits 0x1FFFFFFF = 1 ∧ opBits 0x20000000 = 2 ∧ opBits 0x3FFFFFFF = 3 ∧ opBits 0x40000000 = 4 ∧
    opBits 0x5FFFFFFF = 5 ∧ opBits 0x68100004 = 6 ∧ opBits 0x75000000 = 7 ∧
    (opBits 0x8F00FFFF = 8 ∧ inSizeBits 0x8F00FFFF = 0) ∧ IllegalWord 0x0FFFFFFF ∧ IllegalWord 0x90000000 ∧
    IllegalWord 0xFFFFFFFF ∧ IllegalWord 0x82010008 := by
  refine ⟨by decide, by decide, by decide, by decide, by decide, by decide, by decide, by decide, .inl (by decide),
    .inr (.inl (by decide)), .inr (.inl (by decide)), .inr (.inr (by decide))⟩

theorem witness_IllegalWordsRaise :
    idle.st = .idle ∧ IllegalWord 0x82010008 ∧ IllegalWord 0x90000000 ∧ IllegalWord 0 ∧ ¬ IllegalWord 0x82000008 ∧
      ¬ IllegalWord 0x10000000 := by
  refine ⟨rfl, .inr (.inr (by decide)), .inr (.inl (by decide)), .inl (by decide), ?_, ?_⟩ <;>
    (unfold IllegalWord; decide)

/-! ### Witnesses: steps and transactions -/

theorem witness_StepRunsDecodedCommand : decode 0x61FF0000 = .ok (.disp (.snefru 1) 255 0) := by rfl

theorem witness_WaitingChangesNothing : idle.pending = [] := rfl

theorem witness_CommandsRefusedOutsideIdle : streaming.st ≠ .idle ∧ faulting.st ≠ .idle := by decide

/-- Index 0 and index 15 in IDLE and outside it, and index 16. -/
theorem witness_WriteInputStores :
    idle.st = .idle ∧ streaming.st ≠ .idle ∧ faulting.st ≠ .idle ∧
      (∃ i : Fin 16, i.val = 0) ∧ (∃ i : Fin 16, i.val = 15) ∧ 16 ≤ 16 :=
  ⟨by decide, by decide, by decide, ⟨0, rfl⟩, ⟨15, rfl⟩, le_refl _⟩

/-- WRIN 15 writes the last word of IN. -/
theorem test_wrin_15 :
    after (step (arriving (.memWrite 0x0007C 4 7) idle)) (fun s => (s.inp[14], s.inp[15])) = some (0xEEEEEEEE, 7) := by
  decide

/-- The last word of RES. -/
theorem witness_ReadResultReturns :
    Config.core.resWords - 1 < Config.core.resWords ∧
      ∃ v, State.reset.res[Config.core.resWords - 1]? = some v := by
  have h : 0 < Config.core.resWords := Nat.succ_pos _
  exact ⟨by omega, Config.freeRes 0 (Config.core.resWords - 1), by simp [State.reset, h]⟩

/-- A read that is refused, and one that is not, at the edges of the map. -/
theorem witness_ReadsAcceptedExactly :
    (¬ ∃ t, step (arriving (.memRead 0x00080 4) idle) = .next t) ∧
    (¬ ∃ t, step (arriving (.memRead 0x00000 4) idle) = .next t) ∧
    (¬ ∃ t, step (arriving (.memRead 0x00004 2) idle) = .next t) ∧
    (¬ ∃ t, step (arriving (.memRead 0x00006 4) idle) = .next t) ∧
    (∃ t, step (arriving (.memRead 0x0007C 4) idle) = .next t) ∧
    (∃ t, step (arriving (.memRead 0x40000 4) idle) = .next t) := by
  refine ⟨?_, ?_, ?_, ?_, ⟨_, rfl⟩, ?_⟩
  · rintro ⟨t, h⟩; simp [arriving, step, transact, hostRead, accessed, registerAt] at h
  · rintro ⟨t, h⟩; simp [arriving, step, transact, hostRead, accessed, registerAt] at h
  · rintro ⟨t, h⟩; simp [arriving, step, transact, hostRead, accessed] at h
  · rintro ⟨t, h⟩; simp [arriving, step, transact, hostRead, accessed] at h
  · exact ⟨_, by simp [arriving, step, transact, hostRead, accessed, registerAt, Config.core]; rfl⟩

theorem witness_WritesAcceptedExactly :
    (¬ ∃ t, step (arriving (.memWrite 0x00040 4 1) streaming) = .next t) ∧
    (¬ ∃ t, step (arriving (.memWrite 0x00004 4 1) idle) = .next t) ∧
    (∃ t, step (arriving (.memWrite 0x0007C 4 1) idle) = .next t) ∧
    (∃ t, step (arriving (.memWrite 0x00000 4 1) idle) = .next t) := by
  refine ⟨?_, ?_, ⟨_, rfl⟩, ⟨_, rfl⟩⟩
  · rintro ⟨t, h⟩; simp [arriving, step, transact, hostWrite, accessed, registerAt, writeInput, whenIdle, streaming] at h
  · rintro ⟨t, h⟩; simp [arriving, step, transact, hostWrite, accessed, registerAt] at h

/-- DSIZE = 8: 32 bytes are accepted and 33 are not; outside STREAM none are. -/
theorem witness_ChunksAcceptedExactly :
    (∃ t, step (arriving (.chunk (List.replicate 32 7)) streaming) = .next t) ∧
    (¬ ∃ t, step (arriving (.chunk (List.replicate 33 7)) streaming) = .next t) ∧
    (¬ ∃ t, step (arriving (.chunk []) idle) = .next t) := by
  refine ⟨⟨_, rfl⟩, ?_, ?_⟩
  · rintro ⟨t, h⟩; exact absurd (chunkWith_eq_next (c := Config.core) (bytes := List.replicate 33 7) (s := streaming) h).2.1 (by decide)
  · rintro ⟨t, h⟩; exact absurd (chunkWith_eq_next (c := Config.core) (bytes := []) (s := idle) h).1 (by decide)

/-! ### Witnesses: words and the generic core -/

theorem witness_RotateRightBits : ((8 : Nat) = 8 ∧ (24 : Nat) = 24) ∧ (31 : Nat) < 32 ∧ (0 : Nat) < 32 := by decide

theorem witness_SubstitutionStepNeighbours :
    (List.replicate 4 (1 : Word)).length = 4 ∧ 3 < 4 ∧ (List.replicate 16 (1 : Word)).length = 16 ∧ 0 < 16 := by decide

/-- Level 1: two configurations that differ in table 2 only. -/
theorem witness_TablesReadByLevel :
    (∀ t < 2 * 1, ∀ b, cfgTS.sbox t b = Config.sbox { cfgTS with sbox := fun t b => if t < 2 then tableTS t b else 0 } t b) ∧
      cfgTS.sbox 2 1 ≠ Config.sbox { cfgTS with sbox := fun t b => if t < 2 then tableTS t b else 0 } 2 1 := by
  refine ⟨fun t ht b => ?_, by decide⟩
  show tableTS t b = if t < 2 then tableTS t b else 0
  rw [if_pos (by omega)]

theorem witness_ZeroTablesFoldInput :
    (∀ t b, cfgZS.sbox t b = 0) ∧ (1 ≤ 1 ∧ 1 ≤ 4 ∧ 2 ≤ 2 ∧ 2 ≤ 2 ∧ 2 ≤ 16 ∧ 2 + 2 ≤ pad4 2) ∧
      (1 ≤ 4 ∧ 4 ≤ 4 ∧ 2 ≤ 14 ∧ 14 ≤ 16 ∧ 16 ≤ 16 ∧ 14 + 2 ≤ pad4 16) := ⟨fun _ _ => rfl, by decide, by decide⟩

theorem witness_OutputLengthConsistency :
    ∃ out out', compressGeneric cfgTS 4 i16 16 13 = .ok out ∧ compressGeneric cfgTS 4 i16 16 (13 + 1) = .ok out' :=
  ⟨_, _, compressGeneric_of_valid _ _ (by decide) (by decide) (by decide) (by decide) (by decide),
    compressGeneric_of_valid _ _ (by decide) (by decide) (by decide) (by decide) (by decide)⟩

theorem witness_PaddingTransparency : ∃ out, compressGeneric cfgTS 1 i16 9 9 = .ok out :=
  ⟨_, compressGeneric_of_valid _ _ (by decide) (by decide) (by decide) (by decide) (by decide)⟩

/-! ### Witnesses: the compression commands -/

theorem witness_GenericCompressionCompletes :
    idle.st = .idle ∧
      (∀ x ∈ [((1, 2, 2) : Nat × Nat × Nat), (4, 16, 14), (1, 5, 5), (4, 6, 6), (2, 13, 13)],
        1 ≤ x.1 ∧ x.1 ≤ 4 ∧ 2 ≤ x.2.2 ∧ x.2.2 ≤ x.2.1 ∧ x.2.1 ≤ 16 ∧ x.2.2 + 2 ≤ 4 * ((x.2.1 + 3) / 4)) := by decide

/-- One (L, n, m) for each check, with the checks before it passed. -/
theorem witness_GenericChecksInOrder :
    idle.st = .idle ∧ (¬ ¬ ((0 : Nat) = 0 ∨ 2 * 0 > 8) ∧ ¬ ¬ ((5 : Nat) = 0 ∨ 2 * 5 > 8)) ∧
    (¬ ((1 : Nat) = 0 ∨ 2 * 1 > 8) ∧ 1 < 2) ∧ (¬ ((4 : Nat) = 0 ∨ 2 * 4 > 8) ∧ ¬ 3 < 2 ∧ 3 > 2) ∧
    (¬ 2 < 2 ∧ ¬ 2 > 17 ∧ 17 > 16) ∧ (¬ 15 < 2 ∧ ¬ 15 > 16 ∧ ¬ 16 > 16 ∧ 15 + 2 > 4 * ((16 + 3) / 4)) := by decide

theorem witness_VariantsComplete :
    idle.st = .idle ∧ (1 ≤ 4 ∧ 4 ≤ 4 ∧ 2 ≤ 2 ∧ 2 ≤ 2) ∧ (1 ≤ 2 ∧ 2 ≤ 4 ∧ 2 ≤ 2) ∧
    (5 ≤ 8 ∧ 8 ≤ 8 ∧ 6 ≤ 6) ∧ (9 ≤ 12 ∧ 12 ≤ 12 ∧ 10 ≤ 10) ∧ (13 ≤ 16 ∧ 16 ≤ 16 ∧ 14 ≤ 14) ∧
    (2 ≤ 13 ∧ 13 ≤ 13 ∧ 13 ≤ 16 ∧ 13 ≤ 14) := by decide

/-- The four rows, and for the 256-variant one (n, m) for each check after the level's. -/
theorem witness_VariantChecksInOrder :
    variants.length = 4 ∧ idle.st = .idle ∧ ((5 : Nat) = 0 ∨ 2 * 5 > 8) ∧ ¬ ((4 : Nat) = 0 ∨ 2 * 4 > 8) ∧
    (4 < 5 ∨ 4 > 8) ∧ (9 < 5 ∨ 9 > 8) ∧ (¬ (8 < 5 ∨ 8 > 8) ∧ 7 > 6) ∧ (¬ (5 < 5 ∨ 5 > 8) ∧ ¬ 1 > 6 ∧ 1 < 2) ∧
    (¬ (5 < 5 ∨ 5 > 8) ∧ ¬ 6 > 6 ∧ ¬ 6 < 2 ∧ 6 > 5) := by
  refine ⟨rfl, rfl, ?_⟩; decide

theorem witness_VariantsEqualGenericCore :
    variantFunctions.length = 4 ∧ (13 ≤ 13 ∧ 13 ≤ 16) ∧
      ∃ out out', compress512 cfgTS 4 i16 13 13 = .ok out ∧ compressGeneric cfgTS 4 i16 13 13 = .ok out' :=
  ⟨rfl, by decide, _, _, compress512_of_valid _ _ (by decide) (by decide) (by decide) (by decide) (by decide),
    compressGeneric_of_valid _ _ (by decide) (by decide) (by decide) (by decide) (by decide)⟩

/-! ### Witnesses: the dispatcher -/

theorem witness_DispatchCompletes :
    idle.st = .idle ∧ (1 ≤ 1 ∧ 1 ≤ 4) ∧ (1 ≤ 4 ∧ 4 ≤ 4) ∧
      (∀ x ∈ [((1, 2, 2) : Nat × Nat × Nat), (4, 5, 5), (1, 12, 10), (4, 16, 14)],
        1 ≤ x.1 ∧ x.1 ≤ 4 ∧ 2 ≤ x.2.2 ∧ x.2.2 ≤ x.2.1 ∧ x.2.1 ≤ 16 ∧ x.2.2 + 2 ≤ 4 * ((x.2.1 + 3) / 4)) := by decide

theorem witness_DispatchRoutesByLength :
    ∀ v ∈ variants, 1 ≤ 1 ∧ 4 ≤ 4 ∧ v.2.1 ≤ v.2.1 ∧ v.2.1 ≤ v.2.2.1 := by
  simp [variants]

theorem witness_DispatchRejects :
    idle.st = .idle ∧ (15 ≠ 16 ∨ 4 < 1 ∨ 4 > 4) ∧ (16 ≠ 16 ∨ 0 < 1 ∨ 0 > 4) ∧ (16 ≠ 16 ∨ 5 < 1 ∨ 5 > 4) ∧
      (∀ sel ∈ [0, 5, 7, 9, 15], sel < 16 ∧ sel ≠ 8 ∧ ¬ (1 ≤ sel ∧ sel ≤ 4)) := by decide

/-- Each code the fallback can end in. -/
theorem witness_FallbackWarnsThenFaults :
    idle.st = .idle ∧ (1 ≤ 1 ∧ 4 ≤ 4) ∧ (((0 : Nat) = 0 ∨ 17 ≤ 0) ∧ ¬ 2 < 2 ∧ 2 > 0) ∧
      (((17 : Nat) = 0 ∨ 17 ≤ 17) ∧ ¬ 2 < 2 ∧ ¬ 2 > 17) ∧ (((255 : Nat) = 0 ∨ 17 ≤ 255) ∧ 1 < 2) := by decide

/-! ### Witnesses: the expander -/

theorem witness_ExpandCompletes :
    idle.st = .idle ∧ KnownMethod .md4 ∧ KnownMethod (.snefru 1) ∧ KnownMethod (.snefru 4) ∧ 16 ≤ 16 ∧ 0 ≤ 16 ∧
      0 ≤ Config.core.resWords ∧ Config.core.resWords ≤ Config.core.resWords :=
  ⟨rfl, .inl rfl, .inr ⟨1, by decide, by decide, rfl⟩, .inr ⟨4, by decide, by decide, rfl⟩, by decide, by decide,
    Nat.zero_le _, le_refl _⟩

theorem witness_ExpandChecksInOrder :
    idle.st = .idle ∧ ¬ KnownMethod (.unknown 6) ∧ ¬ KnownMethod (.unknown 0) ∧ (KnownMethod .md4 ∧ 17 > 16) ∧
      (KnownMethod (.snefru 2) ∧ ¬ 16 > 16 ∧ Config.core.resWords + 1 > Config.core.resWords) := by
  refine ⟨rfl, ?_, ?_, ⟨.inl rfl, by decide⟩, .inr ⟨2, by decide, by decide, rfl⟩, by decide, Nat.lt_succ_self _⟩ <;>
    simp [KnownMethod]

theorem witness_ExpandIgnoresSeedWordZero : ∃ t, exec (.expand (.snefru 2) 2 20) idle = .next t := ⟨_, rfl⟩

/-! ### Witnesses: the streaming digest -/

theorem witness_DigestOpens :
    idle.st = .idle ∧ (1 ≤ 1 ∧ 1 ≤ 4 ∧ 2 ≤ 2 ∧ 2 ≤ 14) ∧ (1 ≤ 4 ∧ 4 ≤ 4 ∧ 2 ≤ 14 ∧ 14 ≤ 14) := by decide

theorem witness_DigestChecksInOrder :
    idle.st = .idle ∧ 16 ≥ 16 ∧ (¬ 15 ≥ 16 ∧ ((5 : Nat) = 0 ∨ 2 * 5 > 8)) ∧ (¬ 15 ≥ 16 ∧ ((0 : Nat) = 0 ∨ 2 * 0 > 8)) ∧
      (¬ 15 ≥ 16 ∧ ¬ ((4 : Nat) = 0 ∨ 2 * 4 > 8) ∧ 15 > 14) ∧
      (¬ 1 ≥ 16 ∧ ¬ ((1 : Nat) = 0 ∨ 2 * 1 > 8) ∧ ¬ 1 > 14 ∧ 1 < 2) ∧
      (opBits 0x82010008 = 8 ∧ inSizeBits 0x82010008 ≠ 0) := by decide

/-- An open digest at both ends of the size and level, and a chunk of one byte and one of the most. -/
def streamingAt (L : BitVec 3) (d : BitVec 4) : State := { streaming with dlevel := L, dsize := d }

theorem witness_ChunkAbsorbs :
    ∀ x ∈ [((1, 2) : BitVec 3 × BitVec 4), (4, 14)],
      (streamingAt x.1 x.2).st = .stream ∧ 2 ≤ (streamingAt x.1 x.2).dsize.toNat ∧
      (streamingAt x.1 x.2).dsize.toNat ≤ 14 ∧ 1 ≤ (streamingAt x.1 x.2).dlevel.toNat ∧
      (streamingAt x.1 x.2).dlevel.toNat ≤ 4 ∧ [(0x61 : Byte)] ≠ [] ∧ List.replicate 8 (0x61 : Byte) ≠ [] ∧
      (List.replicate 8 (0x61 : Byte)).length ≤ 4 * (16 - (streamingAt x.1 x.2).dsize.toNat) := by decide +kernel

/-- The low word at its greatest multiple of 8, so that the carry clause is met. -/
theorem witness_BitCounterCarries :
    let s := { streaming with bitcnt := 0xFFFFFFF8 }
    s.st = .stream ∧ s.dsize.toNat ≤ 14 ∧ 2 ≤ s.dsize.toNat ∧ 1 ≤ s.dlevel.toNat ∧ s.dlevel.toNat ≤ 4 ∧
      [(0x61 : Byte)] ≠ [] ∧ (∃ t, step (arriving (.chunk [0x61]) s) = .next t) ∧
      (s.bitcnt.extractLsb' 0 32).toNat + 8 * 1 ≥ 2 ^ 32 :=
  ⟨rfl, by decide, by decide, by decide, by decide, by decide, ⟨_, rfl⟩, by decide⟩

theorem witness_EmptyChunkFinalizes :
    ∀ x ∈ [((1, 2) : BitVec 3 × BitVec 4), (4, 14)],
      (streamingAt x.1 x.2).st = .stream ∧ 2 ≤ (streamingAt x.1 x.2).dsize.toNat ∧
      (streamingAt x.1 x.2).dsize.toNat ≤ 14 ∧ 1 ≤ (streamingAt x.1 x.2).dlevel.toNat ∧
      (streamingAt x.1 x.2).dlevel.toNat ≤ 4 := by decide +kernel

theorem witness_EmptyInputDigest :
    let s := { idle with pending := digestRun 4 14 [] }
    s.st = .idle ∧ 1 ≤ 4 ∧ 4 ≤ 4 ∧ 2 ≤ 14 ∧ 14 ≤ 14 ∧ s.pending = digestRun 4 14 [] ∧
      ¬ (1 ≤ 4 ∧ 4 ≤ 4 ∧ 2 ≤ 15 ∧ 15 ≤ 14) ∧ ¬ (1 ≤ 0 ∧ 0 ≤ 4 ∧ 2 ≤ 2 ∧ 2 ≤ 14) := by
  refine ⟨rfl, by decide, by decide, by decide, by decide, rfl, by decide, by decide⟩

/-- Three chunks, one of them a full one: d = 14, so 8 bytes. -/
theorem witness_BitCountIsBytesDelivered :
    let chunks : List (List Byte) := [[1, 2, 3], [1, 2, 3, 4, 5, 6, 7, 8], [9]]
    let s := { idle with pending := digestRun 1 14 chunks }
    s.st = .idle ∧ 1 ≤ 1 ∧ 1 ≤ 4 ∧ 2 ≤ 14 ∧ 14 ≤ 14 ∧ (∀ b ∈ chunks, b ≠ [] ∧ b.length ≤ 4 * (16 - 14)) ∧
      s.pending = digestRun 1 14 chunks := by
  refine ⟨rfl, by decide, by decide, by decide, by decide, by decide, rfl⟩

/-- Two machines with different inputs, results and answers. -/
theorem witness_DigestIsFunctionOfChunks :
    let chunks : List (List Byte) := [[1, 2, 3], [9]]
    let s := { idle with pending := digestRun 2 8 chunks }
    let s' := { idleWith i16 with pending := digestRun 2 8 chunks, answers := [5], done := false }
    s.st = .idle ∧ s'.st = .idle ∧ 1 ≤ 2 ∧ 2 ≤ 4 ∧ 2 ≤ 8 ∧ 8 ≤ 14 ∧
      (∀ b ∈ chunks, b ≠ [] ∧ b.length ≤ 4 * (16 - 8)) ∧ s.pending = digestRun 2 8 chunks ∧
      s'.pending = digestRun 2 8 chunks := by
  refine ⟨rfl, rfl, by decide, by decide, by decide, by decide, by decide, rfl, rfl⟩

/-! ### Witnesses: frames -/

/-- Every command it names, completing, and a dispatch that falls back. -/
theorem witness_CompressionCommandsFrame :
    (∃ t, exec (.cgen 1 4 2) idle = .next t ∧ t.st ≠ .fault) ∧ (∃ t, exec (.c128 1 4 2) idle = .next t ∧ t.st ≠ .fault) ∧
    (∃ t, exec (.c256 1 8 6) idle = .next t ∧ t.st ≠ .fault) ∧ (∃ t, exec (.c384 1 12 10) idle = .next t ∧ t.st ≠ .fault) ∧
    (∃ t, exec (.c512 1 16 14) idle = .next t ∧ t.st ≠ .fault) ∧ (∃ t, exec (.disp .md4 16 4) idle = .next t ∧ t.st ≠ .fault) ∧
    (∃ t, exec (.expand (.snefru 1) 2 0) idle = .next t ∧ t.st ≠ .fault) ∧
    (∃ t, exec (.disp (.snefru 1) 17 2) idle = .next t ∧ t.st = .fault ∧ t.warn ≠ idle.warn) := by
  refine ⟨⟨_, rfl, ?_⟩, ⟨_, rfl, ?_⟩, ⟨_, rfl, ?_⟩, ⟨_, rfl, ?_⟩, ⟨_, rfl, ?_⟩, ⟨_, rfl, ?_⟩, ⟨_, rfl, ?_⟩,
    ⟨_, rfl, ?_, ?_⟩⟩ <;> decide

theorem witness_DigestFrame :
    (∃ t, exec (.digest 1 2) idle = .next t ∧ t.st ≠ .fault) ∧ (∃ t, exec (.digest 1 16) idle = .next t ∧ t.st = .fault) := by
  refine ⟨⟨_, rfl, ?_⟩, ⟨_, rfl, ?_⟩⟩ <;> decide

theorem witness_TransactionsFrame :
    (∃ t, step (arriving (.memRead 0x00004 4) faulting) = .next t) ∧
    (0x00040 ≠ 0 ∧ ∃ t, step (arriving (.memWrite 0x00040 4 1) idle) = .next t) ∧
    (∃ t, step (arriving (.chunk [1]) streaming) = .next t) ∧ (∃ t, step (arriving (.chunk []) streaming) = .next t) :=
  ⟨⟨_, rfl⟩, ⟨by decide, _, rfl⟩, ⟨_, rfl⟩, ⟨_, rfl⟩⟩

/-- IN agrees in the first four words and differs after them. -/
theorem witness_InputBeyondSizeNotRead :
    (∀ k : Fin 16, k < 4 → (idleWith [1, 2, 3, 4]).inp[k] = (idleWith [1, 2, 3, 4, 5]).inp[k]) ∧
      (idleWith [1, 2, 3, 4]).inp ≠ (idleWith [1, 2, 3, 4, 5]).inp ∧
      ∃ t, exec (.cgen 1 4 2) (idleWith [1, 2, 3, 4]) = .next t :=
  ⟨by decide, by decide, _, rfl⟩

/-! ### Witnesses: faults and the whole machine -/

theorem witness_FaultEntryLeavesData :
    (∃ t, exec (.cgen 0 4 2) idle = .next t ∧ t.st = .fault) ∧
      (∃ t, exec (.disp (.snefru 1) 0 2) idle = .next t ∧ t.st = .fault) := by
  refine ⟨⟨_, rfl, ?_⟩, ⟨_, rfl, ?_⟩⟩ <;> decide

/-- An arbitrary state that meets the invariant: an open digest just after RESET. -/
def invStream : State :=
  { State.reset with st := .stream, dsize := 14, dlevel := 4, bitcnt := 8 }

theorem witness_inv_stream (pending : List Transaction) : State.Inv Config.core { invStream with pending := pending } := by
  constructor <;> simp [invStream, State.reset]

theorem witness_inv_idle (pending : List Transaction) : State.Inv Config.core { State.reset with pending := pending } := by
  constructor <;> simp [State.reset]

theorem witness_OnlyCommandsEnterFault :
    let s := { State.reset with pending := [.memWrite 0x00000 4 0] }
    s.Inv Config.core ∧ s.st ≠ .fault ∧ ∃ t, step s = .next t ∧ t.st = .fault :=
  ⟨witness_inv_idle _, by decide, _, rfl, rfl⟩

/-- A read in FAULT. -/
theorem witness_FaultIsAbsorbing :
    let s := arriving (.memRead 0x00004 4) faulting
    s.st = .fault ∧ (∃ t, step s = .next t) ∧ s.pending.head? ≠ some .reset :=
  ⟨rfl, ⟨_, rfl⟩, by decide⟩

/-- One transfer of each kind. -/
theorem witness_SequencerTransfers :
    (∃ s t, s.Inv Config.core ∧ step s = .next t ∧ s.st = .idle ∧ t.st = .stream) ∧
    (∃ s t, s.Inv Config.core ∧ step s = .next t ∧ s.st = .idle ∧ t.st = .fault) ∧
    (∃ s t, s.Inv Config.core ∧ step s = .next t ∧ s.st = .stream ∧ t.st = .idle ∧ t.done = false) ∧
    (∃ s t, s.Inv Config.core ∧ step s = .next t ∧ s.st = .stream ∧ t.st = .idle ∧ t.done = true) :=
  ⟨⟨{ State.reset with pending := [.memWrite 0x00000 4 0x82000008] }, _, witness_inv_idle _, rfl, rfl, rfl⟩,
    ⟨{ State.reset with pending := [.memWrite 0x00000 4 0] }, _, witness_inv_idle _, rfl, rfl, rfl⟩,
    ⟨{ invStream with pending := [.reset] }, _, witness_inv_stream _, rfl, rfl, rfl, rfl⟩,
    ⟨{ invStream with pending := [.chunk []] }, _, witness_inv_stream _, rfl, rfl, rfl, rfl⟩⟩

theorem witness_WarnSetOnlyByFallback :
    (∃ t, step (arriving (.memWrite 0x00000 4 0x61000002) idle) = .next t ∧ t.warn ≠ idle.warn) ∧
    (∃ t, step (arriving .reset { faulting with warn := true }) = .next t ∧ t.warn ≠ true) := by
  refine ⟨⟨_, rfl, ?_⟩, ⟨_, rfl, ?_⟩⟩ <;> decide

theorem witness_TraceRecordsFaultsAndWarnings :
    (∃ t, step (arriving (.memWrite 0x00000 4 0x61000002) idle) = .next t ∧
      t.trace = [.warnEmitted, .fatalReport .outGtIn]) := ⟨_, rfl, by decide⟩

/-- A step of each kind from a state that meets the invariant. -/
theorem witness_StepKeepsInvariant :
    (State.Inv Config.core { invStream with pending := [.chunk [1]] } ∧
      ∃ t, step { invStream with pending := [.chunk [1]] } = .next t) ∧
    (State.Inv Config.core { State.reset with pending := [.memWrite 0x00000 4 0x5410000E] } ∧
      ∃ t, step { State.reset with pending := [.memWrite 0x00000 4 0x5410000E] } = .next t) :=
  ⟨⟨witness_inv_stream _, _, rfl⟩, ⟨witness_inv_idle _, _, rfl⟩⟩

end Sys2Proof.Tests
end

section
/-! Rotation of a Word: what one bit of `ror32` is (R15), how two rotations compose, and the round's four amounts
(R105). -/
namespace Sys2Proof.Proofs
open Sys2Proof Sys2Proof.Machine

/-! ### One bit of a rotated word -/

/-- A bit comes from the right shift while i + s stays below 32, and from the left shift past it. -/
theorem getLsbD_ror32 (w : Word) {s i : Nat} (hs : s ≤ 32) (hi : i < 32) :
    (ror32 w s).getLsbD i = w.getLsbD ((i + s) % 32) := by
  simp only [ror32, BitVec.getLsbD_or, BitVec.getLsbD_ushiftRight, BitVec.getLsbD_shiftLeft, Nat.add_comm s i]
  by_cases h : i + s < 32
  · have hleft : i < 32 - s := by omega
    simp [hleft, Nat.mod_eq_of_lt h]
  · have hright : w.getLsbD (i + s) = false := BitVec.getLsbD_of_ge w _ (by omega)
    have hwrap : (i + s) % 32 = i - (32 - s) := by omega
    have hleft : ¬ i < 32 - s := by omega
    simp [hright, hwrap, hleft, hi]

/-! ### Rotations compose -/

@[simp] theorem ror32_zero (w : Word) : ror32 w 0 = w := by
  refine BitVec.eq_of_getLsbD_eq fun i hi => ?_
  rw [getLsbD_ror32 w (by decide) hi, Nat.add_zero, Nat.mod_eq_of_lt hi]

/-- Amounts add up modulo the width of a Word. -/
theorem ror32_ror32 (w : Word) {s t : Nat} (hs : s ≤ 32) (ht : t ≤ 32) :
    ror32 (ror32 w s) t = ror32 w ((s + t) % 32) := by
  have hst : (s + t) % 32 ≤ 32 := by omega
  refine BitVec.eq_of_getLsbD_eq fun i hi => ?_
  have hit : (i + t) % 32 < 32 := Nat.mod_lt _ (by decide)
  have hidx : ((i + t) % 32 + s) % 32 = (i + (s + t) % 32) % 32 := by omega
  rw [getLsbD_ror32 _ ht hi, getLsbD_ror32 w hs hit, getLsbD_ror32 w hst hi, hidx]

/-! ### The amounts of a round -/

theorem rotAmount_le (p : Nat) : rotAmount p ≤ 32 := by
  unfold rotAmount
  split <;> decide

/-- 16 + 8 + 16 + 24 is two whole turns. -/
theorem rotAmount_round_sum :
    (((rotAmount 0 + rotAmount 1) % 32 + rotAmount 2) % 32 + rotAmount 3) % 32 = 0 := by decide

/-! ### The obligations -/

/-- Settles O19: the bit rule of `ror32` at the three amounts the core rotates by. -/
theorem rotateRightBits : Obligations.RotateRightBits := by
  intro w s i hs hi
  have hs32 : s ≤ 32 := by omega
  exact getLsbD_ror32 w hs32 hi

/-- Settles O20: the four rotations compose to one, by the sum of the amounts, which is 0 modulo 32. -/
theorem roundRestoresAlignment : Obligations.RoundRestoresAlignment := by
  intro w
  have hmod (n : Nat) : n % 32 ≤ 32 := (Nat.mod_lt n (by decide)).le
  rw [ror32_ror32 w (rotAmount_le 0) (rotAmount_le 1), ror32_ror32 w (hmod _) (rotAmount_le 2),
    ror32_ror32 w (hmod _) (rotAmount_le 3), rotAmount_round_sum, ror32_zero]

end Sys2Proof.Proofs
end

section
/-! The invariant of every reachable state (10_state.md R22, R29, R32): what establishes it in each sequencer state, and
that every operation, transaction and step keeps it. -/
namespace Sys2Proof.Proofs
open Sys2Proof Sys2Proof.Machine

section
variable {c : Config} {s t : State}

/-! ### What the invariant asks in each sequencer state -/

theorem inv_of_idle (hst : t.st = .idle) (hres : t.res.length = c.resWords) (herr : t.err = 0)
    (hwarn : t.warn = false) : t.Inv c where
  resLength := hres
  errInFault h := by simp [hst] at h
  errOutsideFault _ := herr
  doneOnlyIdle _ := hst
  warnOnlyFault h := by simp [hwarn] at h
  digestSize h := by simp [hst] at h
  digestLevel h := by simp [hst] at h
  wholeBytes h := by simp [hst] at h

theorem inv_of_fault {code : ErrCode} (hst : t.st = .fault) (hres : t.res.length = c.resWords)
    (herr : t.err = code.code) (hdone : t.done = false) : t.Inv c where
  resLength := hres
  errInFault _ := ⟨code, herr⟩
  errOutsideFault h := absurd hst h
  doneOnlyIdle h := by simp [hdone] at h
  warnOnlyFault _ := hst
  digestSize h := by simp [hst] at h
  digestLevel h := by simp [hst] at h
  wholeBytes h := by simp [hst] at h

theorem inv_of_stream (hst : t.st = .stream) (hres : t.res.length = c.resWords) (herr : t.err = 0)
    (hdone : t.done = false) (hwarn : t.warn = false) (hdig : t.DigestValid) (hbits : t.bitcnt.toNat % 8 = 0) :
    t.Inv c where
  resLength := hres
  errInFault h := by simp [hst] at h
  errOutsideFault _ := herr
  doneOnlyIdle h := by simp [hdone] at h
  warnOnlyFault h := by simp [hwarn] at h
  digestSize _ := hdig.1
  digestLevel _ := hdig.2
  wholeBytes _ := hbits

theorem inv_flags_of_not_fault (h : s.Inv c) (hs : s.st ≠ .fault) : s.err = 0 ∧ s.warn = false :=
  ⟨h.errOutsideFault hs, Bool.eq_false_iff.2 fun hw => hs (h.warnOnlyFault hw)⟩

theorem inv_done_of_not_idle (h : s.Inv c) (hs : s.st ≠ .idle) : s.done = false :=
  Bool.eq_false_iff.2 fun hd => hs (h.doneOnlyIdle hd)

theorem inv_digestValid (h : s.Inv c) (hs : s.st = .stream) : s.DigestValid :=
  ⟨h.digestSize hs, h.digestLevel hs⟩

/-! ### The operations keep the invariant -/

theorem withPending_keeps_inv (h : s.Inv c) (queue : List Transaction) : State.Inv c { s with pending := queue } :=
  { h with }

theorem answer_keeps_inv (h : s.Inv c) (v : Word) : (s.answer v).Inv c := { h with }

theorem writeIn_keeps_inv (h : s.Inv c) (i : Nat) (v : Word) : (s.writeIn i v).Inv c := { h with }

theorem applyReset_inv (c : Config) (s : State) : (s.applyReset c).Inv c :=
  inv_of_idle rfl (by simp) rfl rfl

/-- Fault entry needs only that RES has its size. -/
theorem raiseConfig_inv (hres : s.res.length = c.resWords) (code : ErrCode) : (s.raiseConfig code).Inv c :=
  inv_of_fault rfl hres rfl rfl

theorem complete_keeps_inv (h : s.Inv c) (hs : s.st = .idle) {out : List Word} (hout : out.length ≤ c.resWords) :
    (s.clearDone.complete out).Inv c := by
  obtain ⟨herr, hwarn⟩ := inv_flags_of_not_fault h (by simp [hs])
  have hlen : out.length ≤ s.clearDone.res.length := by simpa [h.resLength] using hout
  exact inv_of_idle hs ((State.complete_res_length _ out hlen).trans h.resLength) herr hwarn

theorem openDigest_keeps_inv (h : s.Inv c) (hs : s.st = .idle) {L d : Nat} (hL : 1 ≤ L ∧ L ≤ 4)
    (hd : 2 ≤ d ∧ d ≤ 14) : (s.clearDone.openDigest L d).Inv c := by
  obtain ⟨herr, hwarn⟩ := inv_flags_of_not_fault h (by simp [hs])
  have hdig : (s.clearDone.openDigest L d).DigestValid := by
    simp only [State.DigestValid, State.openDigest_dsize, State.openDigest_dlevel, BitVec.toNat_ofNat]
    omega
  exact inv_of_stream rfl h.resLength herr rfl hwarn hdig rfl

/-- Whole bytes stay whole: 8 divides the modulus of BITCNT (44_digest.md R168). -/
theorem receive_wholeBytes (hbits : s.bitcnt.toNat % 8 = 0) (bytes : List Byte) :
    (s.receive c bytes).bitcnt.toNat % 8 = 0 := by
  simp only [State.receive_bitcnt, BitVec.toNat_add, BitVec.toNat_ofNat]
  omega

theorem absorb_keeps_inv (h : s.Inv c) (hs : s.st = .stream) (bytes : List Byte) : (s.absorb c bytes).Inv c := by
  obtain ⟨herr, hwarn⟩ := inv_flags_of_not_fault h (by simp [hs])
  have hdig : s.DigestValid := inv_digestValid h hs
  have hdone : s.done = false := inv_done_of_not_idle h (by simp [hs])
  have hbits : (s.receive c bytes).bitcnt.toNat % 8 = 0 := receive_wholeBytes (h.wholeBytes hs) bytes
  obtain ⟨out, -, -, heq⟩ := State.absorb_of_valid c bytes hdig
  rw [heq]
  exact inv_of_stream hs h.resLength herr hdone hwarn hdig hbits

/-- The digest's output fits RES, which has at least 16 Words (00_scope.md R10). -/
theorem finalize_keeps_inv (hc : 16 ≤ c.resWords) (h : s.Inv c) (hs : s.st = .stream) : (s.finalize c).Inv c := by
  obtain ⟨herr, hwarn⟩ := inv_flags_of_not_fault h (by simp [hs])
  have hdig : s.DigestValid := inv_digestValid h hs
  have hsize : s.dsize.toNat ≤ 14 := hdig.1.2
  obtain ⟨out, -, hlen, heq⟩ := State.finalize_of_valid c hdig
  have hfit : out.length ≤ (s.receive c []).writeLength.res.length := by
    simp only [State.writeLength_res, State.receive_res, h.resLength]; omega
  rw [heq]
  exact inv_of_idle rfl ((State.complete_res_length _ out hfit).trans h.resLength) herr hwarn

/-! ### Commands, transactions and the step keep the invariant -/

theorem core_resWords_ge : 16 ≤ Config.core.resWords := Nat.le_add_left 16 _

theorem exec_keeps_inv {i : Instr} (h : s.Inv Config.core) (ht : exec i s = .next t) : t.Inv Config.core := by
  obtain ⟨hs, ⟨out, -, hfit, -, rfl⟩ | ⟨code, rfl⟩ | ⟨L, n, m, code, -, -, -, -, rfl⟩ | ⟨L, d, -, hL, hd, rfl⟩⟩ :=
    exec_next_cases ht
  · have hout : out.length ≤ Config.core.resWords := by have := core_resWords_ge; omega
    exact complete_keeps_inv h hs hout
  · exact raiseConfig_inv h.resLength code
  · exact raiseConfig_inv (by simpa using h.resLength) code
  · exact openDigest_keeps_inv h hs hL hd

theorem transact_keeps_inv {u : Transaction} (h : s.Inv Config.core)
    (ht : transact Config.core exec u s = .next t) : t.Inv Config.core := by
  rcases transact_next_cases ht with ⟨-, rfl⟩ | ⟨_, _, v, -, rfl⟩ | ⟨w, i, -, -, he⟩ | ⟨w, e, -, -, -, rfl⟩ |
    ⟨i, v, -, -, -, rfl⟩ | ⟨bytes, -, -, hs, -, rfl⟩ | ⟨-, hs, rfl⟩
  · exact applyReset_inv _ s
  · exact answer_keeps_inv h v
  · exact exec_keeps_inv h he
  · exact raiseConfig_inv h.resLength .illegal
  · exact writeIn_keeps_inv h i v
  · exact absorb_keeps_inv h hs bytes
  · exact finalize_keeps_inv core_resWords_ge h hs

end

/-! ### The obligations -/

/-- Settles O57: waiting changes nothing, and every transaction keeps the invariant. -/
theorem stepKeepsInvariant : Obligations.StepKeepsInvariant := by
  intro s t h ht
  obtain ⟨-, rfl⟩ | ⟨u, rest, -, hu⟩ := step_next_cases ht
  · exact h
  · exact transact_keeps_inv (withPending_keeps_inv h rest) hu

/-- Settles O58: the state after reset is IDLE with all flags clear and RES_WORDS words of RES. -/
theorem resetMeetsInvariant : Obligations.ResetMeetsInvariant :=
  inv_of_idle rfl (by simp [State.reset]) rfl rfl

end Sys2Proof.Proofs
end

section
/-! The STATUS view (10_state.md R35): what each of its bits is, and its value after reset. -/
namespace Sys2Proof.Proofs
open Sys2Proof Sys2Proof.Machine Sys2Proof.Statements

/-! ### The bits of STATUS -/

/-- The register STATUS bit by bit: ST, DONE, WARN and ERR at their places, 0 elsewhere. -/
theorem getLsbD_statusWord (s : State) (i : Nat) :
    s.statusWord.getLsbD i =
      if i < 2 then s.st.code.getLsbD i
      else if i = 2 then s.done
      else if i = 3 then s.warn
      else if 8 ≤ i then s.err.getLsbD (i - 8)
      else false := by
  have hst (h : 2 ≤ i) : s.st.code.getLsbD i = false := BitVec.getLsbD_of_ge _ _ h
  have herr (h : 16 ≤ i) : s.err.getLsbD (i - 8) = false := BitVec.getLsbD_of_ge _ _ (by omega)
  simp only [State.statusWord, BitVec.getLsbD_or, BitVec.getLsbD_shiftLeft, BitVec.getLsbD_setWidth,
    BitVec.getLsbD_ofBool]
  split_ifs with h₁ h₂ h₃ h₄
  · have h₈ : i < 8 := by omega
    simp [h₁, h₈, show i < 32 by omega, show i < 3 by omega]
  · subst h₂; simp
  · subst h₃; simp
  · have hdone : i - 2 ≠ 0 := by omega
    have hwarn : i - 3 ≠ 0 := by omega
    by_cases h : i < 16
    · simp [hst (by omega), hdone, hwarn, h₄, show i < 32 by omega, show i - 8 < 32 by omega]
    · simp [hst (by omega), hdone, hwarn, herr (by omega)]
  · have h₈ : i < 8 := by omega
    simp [hst (by omega), h₈, show i - 2 ≠ 0 by omega, show i - 3 ≠ 0 by omega]

theorem statusWord_st (s : State) : s.statusWord.extractLsb' 0 2 = s.st.code := by
  refine BitVec.eq_of_getLsbD_eq fun i hi => ?_
  rw [BitVec.getLsbD_extractLsb', getLsbD_statusWord, if_pos (by omega)]
  simp [hi]

theorem statusWord_done (s : State) : s.statusWord.getLsbD 2 = s.done := getLsbD_statusWord s 2

theorem statusWord_warn (s : State) : s.statusWord.getLsbD 3 = s.warn := getLsbD_statusWord s 3

/-- Bits 7:4 are reserved. -/
theorem statusWord_bits_4_7 (s : State) : s.statusWord.extractLsb' 4 4 = 0 := by
  refine BitVec.eq_of_getLsbD_eq fun i hi => ?_
  rw [BitVec.getLsbD_extractLsb', getLsbD_statusWord, if_neg (by omega), if_neg (by omega), if_neg (by omega),
    if_neg (by omega)]
  simp

theorem statusWord_err (s : State) : s.statusWord.extractLsb' 8 8 = s.err := by
  refine BitVec.eq_of_getLsbD_eq fun i hi => ?_
  rw [BitVec.getLsbD_extractLsb', getLsbD_statusWord, if_neg (by omega), if_neg (by omega), if_neg (by omega),
    if_pos (by omega)]
  simp [hi]

/-- Bits 31:16 are reserved: ERR is 8 bits wide. -/
theorem statusWord_bits_16_31 (s : State) : s.statusWord.extractLsb' 16 16 = 0 := by
  refine BitVec.eq_of_getLsbD_eq fun i hi => ?_
  have herr : s.err.getLsbD (16 + i - 8) = false := BitVec.getLsbD_of_ge _ _ (by omega)
  rw [BitVec.getLsbD_extractLsb', getLsbD_statusWord, if_neg (by omega), if_neg (by omega), if_neg (by omega),
    if_pos (by omega), herr]
  simp

/-! ### A transaction that arrives -/

/-- The transaction at the head of the queue happens in the state without it. -/
theorem step_arriving (u : Transaction) (s : State) : step (arriving u s) = transact Config.core exec u s :=
  step_of_pending (s := arriving u s) rfl

theorem step_read_status (s : State) : step (arriving (.memRead 0x00004 4) s) = .next (s.answer s.statusWord) := by
  have hacc : accessed Config.core 0x00004 4 = .ok .status := accessed_of_register rfl (registerAt_status _)
  rw [step_arriving, transact_memRead, hostRead, hacc, readStatus]

/-! ### The obligations -/

/-- Settles O13: RDSTATUS answers the STATUS view, whose fields stand in the register at their places. -/
theorem readStatusFields : Obligations.ReadStatusFields := by
  intro s
  refine ⟨s.statusWord, step_read_status s, (statusWord_st s).trans ?_, statusWord_done s, statusWord_warn s,
    statusWord_bits_4_7 s, statusWord_err s, statusWord_bits_16_31 s⟩
  cases s.st <;> rfl

/-- Settles O18: the reset state is written out with these values, and its STATUS is assembled from them. -/
theorem resetValues : Obligations.ResetValues := ⟨rfl, rfl, rfl, rfl, rfl, rfl⟩

end Sys2Proof.Proofs
end

section
/-! BITCNT in its two Words (10_state.md R33, 44_digest.md R168): the carry out of the low Word. -/
namespace Sys2Proof.Proofs
open Sys2Proof Sys2Proof.Machine Sys2Proof.Statements

/-! ### The two Words of a 64-bit sum -/

theorem toNat_low_add (b : BitVec 64) (k : Nat) :
    ((b + BitVec.ofNat 64 k).extractLsb' 0 32).toNat = ((b.extractLsb' 0 32).toNat + k) % 2 ^ 32 := by
  simp only [BitVec.extractLsb'_toNat, BitVec.toNat_add, BitVec.toNat_ofNat, Nat.shiftRight_zero]
  omega

/-- An amount below 2^32 reaches the high Word only through the carry. -/
theorem toNat_high_add (b : BitVec 64) {k : Nat} (hk : k < 2 ^ 32) :
    ((b + BitVec.ofNat 64 k).extractLsb' 32 32).toNat =
      if (b.extractLsb' 0 32).toNat + k ≥ 2 ^ 32 then ((b.extractLsb' 32 32).toNat + 1) % 2 ^ 32
      else (b.extractLsb' 32 32).toNat := by
  have hb : b.toNat < 2 ^ 64 := b.isLt
  simp only [BitVec.extractLsb'_toNat, BitVec.toNat_add, BitVec.toNat_ofNat, Nat.shiftRight_eq_div_pow]
  split_ifs <;> omega

/-! ### The counter after a chunk -/

/-- A non-empty chunk that happens is absorbed, and the port carried all of it (R165, R169). -/
theorem step_chunk_eq_absorb {bytes : List Byte} {s t : State} (hne : bytes ≠ [])
    (h : step (arriving (.chunk bytes) s) = .next t) :
    bytes.length ≤ 4 * s.readWords ∧ t = s.absorb Config.core bytes := by
  rw [step_arriving, transact_chunk] at h
  obtain ⟨-, hlen, ⟨hnil, -⟩ | ⟨-, ht⟩⟩ := chunkWith_eq_next h
  · exact absurd hnil hne
  · exact ⟨hlen, ht⟩

theorem absorb_bitcnt {s : State} (c : Config) (bytes : List Byte) (h : s.DigestValid) :
    (s.absorb c bytes).bitcnt = s.bitcnt + BitVec.ofNat 64 (8 * bytes.length) := by
  obtain ⟨out, -, -, heq⟩ := State.absorb_of_valid c bytes h
  rw [heq, State.writeHead_bitcnt, State.receive_bitcnt]

/-! ### The obligation -/

/-- Settles O42: a chunk of at most 64 bytes advances the counter by less than 2^32: by its low Word and one carry. -/
theorem bitCounterCarries : Obligations.BitCounterCarries := by
  intro bytes s t _ hmax hmin hL₁ hL₂ hne h
  obtain ⟨hlen, rfl⟩ := step_chunk_eq_absorb hne h
  have hk : 8 * bytes.length < 2 ^ 32 := by unfold State.readWords at hlen; omega
  rw [absorb_bitcnt _ _ ⟨⟨hmin, hmax⟩, hL₁, hL₂⟩]
  exact ⟨toNat_low_add _ _, toNat_high_add _ hk⟩

end Sys2Proof.Proofs
end

section
/-! The frame of the commands that write RES in their own step (10_state.md R21, R22, R30; 60_exceptions.md R196). -/
namespace Sys2Proof.Proofs
open Sys2Proof Sys2Proof.Machine

/-- The commands that write RES in their own step, by their output size: every command but DIGEST. -/
theorem outSize_of_compression {i : Instr} {m : Nat}
    (hi : (∃ L n, i = .cgen L n m ∨ i = .c128 L n m ∨ i = .c256 L n m ∨ i = .c384 L n m ∨ i = .c512 L n m) ∨
      ∃ method n, i = .disp method n m ∨ i = .expand method n m) :
    outSize i = m ∧ ∀ L d, i ≠ .digest L d := by
  rcases hi with ⟨L, n, rfl | rfl | rfl | rfl | rfl⟩ | ⟨method, n, rfl | rfl⟩ <;> simp [outSize]

/-- Settles O47: such a command completes, does fault entry, or warns first and then does fault entry. -/
theorem compressionCommandsFrame : Obligations.CompressionCommandsFrame := by
  intro i m s t hi h
  obtain ⟨hsize, hdigest⟩ := outSize_of_compression hi
  obtain ⟨hs, ⟨out, hout, -, -, rfl⟩ | ⟨code, rfl⟩ | ⟨L, n, m', code, rfl, hL, hn, -, rfl⟩ | ⟨L, d, heq, -⟩⟩ :=
    exec_next_cases h
  case inr.inr.inr => exact absurd heq (hdigest L d)
  case inl =>
    have hres (k : Nat) (hk : m ≤ k) : (s.clearDone.complete out).res[k]? = s.res[k]? :=
      State.complete_res_beyond s.clearDone out (by omega)
    simpa [hs] using hres
  case inr.inl => simp
  case inr.inr.inl =>
    have hm : m' = m := hsize
    simp [hm, hL, hn]

end Sys2Proof.Proofs
end

section
/-! Words of IN at and above the input size are not read (10_state.md R21, 40_compress_generic.md R102): every engine
reads its input through `padWord`, or, on the MD4 port, all sixteen Words of a block of size 16. -/
namespace Sys2Proof.Proofs
open Sys2Proof Sys2Proof.Machine

/-! ### Engines read the padded input only -/

section
variable (c : Config) (L m : Nat) {n : Nat} {inp inp' : List Word} (h : padWord n inp = padWord n inp')
include h

theorem compressGeneric_congr : compressGeneric c L inp n m = compressGeneric c L inp' n m := by
  simp only [compressGeneric, padInput, h]

theorem compress128_congr : compress128 c L inp n m = compress128 c L inp' n m := by
  simp only [compress128, load128, h]

theorem compress256_congr : compress256 c L inp n m = compress256 c L inp' n m := by
  simp only [compress256, load256, h]

theorem compress384_congr : compress384 c L inp n m = compress384 c L inp' n m := by
  simp only [compress384, load384, h]

theorem compress512_congr : compress512 c L inp n m = compress512 c L inp' n m := by
  simp only [compress512, load512, h]

theorem snefruRoute_congr : snefruRoute c L inp n m = snefruRoute c L inp' n m := by
  simp only [snefruRoute, compress128_congr c L m h, compress256_congr c L m h, compress384_congr c L m h,
    compress512_congr c L m h, compressGeneric_congr c L m h]

theorem staging_congr (off : Nat) : staging c inp n off = staging c inp' n off := by
  simp only [staging, h]

theorem expandChunks_congr (method : Method) (T chunks off : Nat) :
    expandChunks c method inp n T chunks off = expandChunks c method inp' n T chunks off := by
  induction chunks generalizing off with
  | zero => rfl
  | succ k ih => simp only [expandChunks, staging_congr c h, ih]

theorem expandSeed_congr (method : Method) (T : Nat) : expandSeed c method inp n T = expandSeed c method inp' n T := by
  simp only [expandSeed, expandChunks_congr c h]

end

/-! ### Two input buffers that agree below the input size -/

section
variable {n : Nat} {v v' : Vector Word 16} (h : ∀ k : Fin 16, k < n → v[k] = v'[k])
include h

theorem padWord_congr : padWord n v.toList = padWord n v'.toList := by
  funext i
  unfold padWord
  split_ifs with hi
  · by_cases h16 : i < 16
    · rw [toList_getD v h16, toList_getD v' h16]
      exact h ⟨i, h16⟩ hi
    · rw [List.getD_eq_default _ _ (by simpa using h16), List.getD_eq_default _ _ (by simpa using h16)]
  · rfl

/-- The MD4 port is the one reader of all sixteen Words, and takes no other size than 16 (42_dispatch.md R142). -/
theorem md4_congr (c : Config) (m : Nat) :
    checked (md4Checks n m) (md4Words c v.toList m) = checked (md4Checks n m) (md4Words c v'.toList m) := by
  by_cases hn : n = 16
  · have hv : v = v' := Vector.ext fun i hi => h ⟨i, hi⟩ (by simp [hn, hi])
    rw [hv]
  · have hshape : firstFailing (md4Checks n m) = some .md4Shape := by simp [md4Checks, hn]
    rw [checked_of_some hshape, checked_of_some hshape]

theorem dispatch_congr (c : Config) (method : Method) (m : Nat) :
    dispatch c method v.toList n m = dispatch c method v'.toList n m := by
  cases method with
  | md4 => simp only [dispatch, md4_congr h]
  | snefru L => simp only [dispatch, snefruRoute_congr c L m (padWord_congr h)]
  | unknown k => rfl

end

/-! ### The step, but for IN -/

theorem warnOnFallback_withInp (s : State) (inp' : Vector Word 16) (method : Method) (n : Nat) :
    State.warnOnFallback { s with inp := inp' } method n = { s.warnOnFallback method n with inp := inp' } := by
  unfold State.warnOnFallback State.latchWarn
  split_ifs <;> rfl

/-- A command that ends in `conclude` takes IN into account through its result only. -/
theorem whenIdle_conclude_withInp {s t : State} (u : State) {r r' : Except ErrCode (List Word)}
    (inp' : Vector Word 16) (hr : r = r') (h : whenIdle s (.next (u.conclude r)) = .next t) :
    whenIdle { s with inp := inp' } (.next (State.conclude { u with inp := inp' } r')) =
      .next { t with inp := inp' } := by
  obtain ⟨hs, h⟩ := whenIdle_eq_next h
  injection h with h
  subst hr h
  rw [whenIdle_of_idle (s := { s with inp := inp' }) hs]
  cases r <;> rfl

/-! ### The obligation -/

/-- Settles O50: the results agree, since the padded inputs do, and the ends of the commands keep IN. -/
theorem inputBeyondSizeNotRead : Obligations.InputBeyondSizeNotRead := by
  intro i n s inp' t hi hagree h
  have hpad : padWord n s.inWords = padWord n inp'.toList := padWord_congr hagree
  rcases hi with ⟨L, m, rfl | rfl | rfl | rfl | rfl⟩ | ⟨method, m, rfl | rfl⟩
  · exact whenIdle_conclude_withInp s.clearDone inp' (compressGeneric_congr Config.core L m hpad) h
  · exact whenIdle_conclude_withInp s.clearDone inp' (compress128_congr Config.core L m hpad) h
  · exact whenIdle_conclude_withInp s.clearDone inp' (compress256_congr Config.core L m hpad) h
  · exact whenIdle_conclude_withInp s.clearDone inp' (compress384_congr Config.core L m hpad) h
  · exact whenIdle_conclude_withInp s.clearDone inp' (compress512_congr Config.core L m hpad) h
  · have hend :=
      whenIdle_conclude_withInp (s.clearDone.warnOnFallback method n) inp'
        (dispatch_congr hagree Config.core method m) h
    rwa [← warnOnFallback_withInp] at hend
  · exact whenIdle_conclude_withInp s.clearDone inp' (expandSeed_congr Config.core hpad method m) h

end Sys2Proof.Proofs
end

section
/-! WARN and the observation trace over one step (10_state.md R30, R40; 60_exceptions.md R196). A step's new events are
given case by case; the counts follow from them. -/
namespace Sys2Proof.Proofs
open Sys2Proof Sys2Proof.Machine

/-! ### What a chunk can do, with no premise on the digest's parameters -/

theorem absorb_cases (c : Config) (s : State) (bytes : List Byte) :
    (∃ out, s.absorb c bytes = (s.receive c bytes).writeHead out) ∨
      ∃ code, s.absorb c bytes = (s.receive c bytes).raiseConfig code := by
  cases h : (s.receive c bytes).compressChain c with
  | ok out => exact .inl ⟨out, by simp only [State.absorb, h]⟩
  | error code => exact .inr ⟨code, by simp only [State.absorb, h]⟩

theorem finalize_cases (c : Config) (s : State) :
    (∃ out, s.finalize c = { ((s.receive c []).writeLength.complete out).discardDigest with st := .idle }) ∨
      ∃ code, s.finalize c = (s.receive c []).writeLength.raiseConfig code := by
  cases h : (s.receive c []).writeLength.compressChain c with
  | ok out => exact .inl ⟨out, by simp only [State.finalize, h]⟩
  | error code => exact .inr ⟨code, by simp only [State.finalize, h]⟩

@[simp] theorem absorb_warn (c : Config) (s : State) (bytes : List Byte) : (s.absorb c bytes).warn = s.warn := by
  obtain ⟨out, h⟩ | ⟨code, h⟩ := absorb_cases c s bytes <;> simp [h]

@[simp] theorem finalize_warn (c : Config) (s : State) : (s.finalize c).warn = s.warn := by
  obtain ⟨out, h⟩ | ⟨code, h⟩ := finalize_cases c s <;> simp [h]

/-! ### WARN -/

/-- Of the commands, only DISP's fallback touches WARN, and it sets it. -/
theorem exec_warn_cases {i : Instr} {s t : State} (h : exec i s = .next t) :
    t.warn = s.warn ∨ (t.warn = true ∧ ∃ L n m, i = .disp (.snefru L) n m ∧ (n = 0 ∨ 17 ≤ n)) := by
  obtain ⟨-, ⟨out, -, -, -, rfl⟩ | ⟨code, rfl⟩ | ⟨L, n, m, code, hi, -, hn, -, rfl⟩ | ⟨L, d, -, -, -, rfl⟩⟩ :=
    exec_next_cases h
  · exact .inl rfl
  · exact .inl rfl
  · exact .inr ⟨by simp, L, n, m, hi, hn⟩
  · exact .inl rfl

theorem transact_warn_cases {u : Transaction} {s t : State} (h : transact Config.core exec u s = .next t) :
    t.warn = s.warn ∨ (t.warn = false ∧ u = .reset) ∨
      (t.warn = true ∧ ∃ w L n m, u = .memWrite 0x00000 4 w ∧ decode w = .ok (.disp (.snefru L) n m) ∧
        (n = 0 ∨ 17 ≤ n)) := by
  rcases transact_next_cases h with ⟨hu, rfl⟩ | ⟨_, _, v, -, rfl⟩ | ⟨w, i, hu, hw, he⟩ | ⟨w, e, -, -, -, rfl⟩ |
    ⟨i, v, -, -, -, rfl⟩ | ⟨bytes, -, -, -, -, rfl⟩ | ⟨-, -, rfl⟩
  · exact .inr (.inl ⟨rfl, hu⟩)
  · exact .inl rfl
  · obtain hsame | ⟨hset, L, n, m, rfl, hn⟩ := exec_warn_cases he
    · exact .inl hsame
    · exact .inr (.inr ⟨hset, w, L, n, m, hu, hw, hn⟩)
  · exact .inl rfl
  · exact .inl rfl
  · exact .inl (absorb_warn ..)
  · exact .inl (finalize_warn ..)

/-! ### The events of a step -/

/-- A report to the fatal-error collaborator, of any code. -/
def isFatalReport : Event → Bool
  | .fatalReport _ => true
  | _ => false

/-- `events` is what the trace of `t` has over that of `s`, and it holds one FatalReport exactly if FAULT is entered and
one WarnEmitted exactly if WARN goes from 0 to 1. -/
structure Records (s t : State) (events : List Event) : Prop where
  trace : t.trace = s.trace ++ events
  fatal : events.countP isFatalReport = if s.st ≠ .fault ∧ t.st = .fault then 1 else 0
  warn : events.count .warnEmitted = if s.warn = false ∧ t.warn = true then 1 else 0

/-- Nothing is recorded when FAULT is not entered and WARN does not rise. -/
theorem records_nil {s t : State} (htrace : t.trace = s.trace) (hst : t.st = s.st ∨ t.st ≠ .fault)
    (hwarn : t.warn = s.warn ∨ t.warn = false) : Records s t [] where
  trace := by simp [htrace]
  fatal := by rw [if_neg (by rcases hst with h | h <;> simp [h])]; rfl
  warn := by rw [if_neg (by rcases hwarn with h | h <;> simp [h])]; rfl

theorem raiseConfig_records {s : State} (hs : s.st ≠ .fault) (code : ErrCode) :
    Records s (s.clearDone.raiseConfig code) [.fatalReport code] where
  trace := rfl
  fatal := by simp [hs, isFatalReport]
  warn := by simp

theorem exec_records {i : Instr} {s t : State} (h : exec i s = .next t) : ∃ events, Records s t events := by
  obtain ⟨hs, ⟨out, -, -, -, rfl⟩ | ⟨code, rfl⟩ | ⟨L, n, m, code, -, -, -, hw, rfl⟩ | ⟨L, d, -, -, -, rfl⟩⟩ :=
    exec_next_cases h
  · exact ⟨[], records_nil rfl (.inl rfl) (.inl rfl)⟩
  · exact ⟨_, raiseConfig_records (by simp [hs]) code⟩
  · exact ⟨[.warnEmitted, .fatalReport code], by simp [hw], by simp [hs, isFatalReport], by simp [hw]⟩
  · exact ⟨[], records_nil rfl (.inr (by simp)) (.inl rfl)⟩

/-- An absorbed chunk records its read, and a report in the states where the compression faults (log 17). -/
theorem absorb_records {s : State} (hs : s.st = .stream) (c : Config) (bytes : List Byte) :
    ∃ events, Records s (s.absorb c bytes) events := by
  obtain ⟨out, h⟩ | ⟨code, h⟩ := absorb_cases c s bytes
  · exact ⟨[.srcRead s.readWords bytes], by simp [h], by simp [h, hs, isFatalReport], by simp⟩
  · exact ⟨[.srcRead s.readWords bytes, .fatalReport code], by simp [h], by simp [h, hs, isFatalReport], by simp⟩

/-- A final chunk records its read, and a report in the states where the compression faults (log 17). -/
theorem finalize_records {s : State} (hs : s.st = .stream) (c : Config) :
    ∃ events, Records s (s.finalize c) events := by
  obtain ⟨out, h⟩ | ⟨code, h⟩ := finalize_cases c s
  · exact ⟨[.srcRead s.readWords []], by simp [h], by simp [h, isFatalReport], by simp⟩
  · exact ⟨[.srcRead s.readWords [], .fatalReport code], by simp [h], by simp [h, hs, isFatalReport], by simp⟩

theorem transact_records {u : Transaction} {s t : State} (h : transact Config.core exec u s = .next t) :
    ∃ events, Records s t events := by
  rcases transact_next_cases h with ⟨-, rfl⟩ | ⟨_, _, v, -, rfl⟩ | ⟨w, i, -, -, he⟩ | ⟨w, e, -, -, hs, rfl⟩ |
    ⟨i, v, -, -, -, rfl⟩ | ⟨bytes, -, -, hs, -, rfl⟩ | ⟨-, hs, rfl⟩
  · exact ⟨[], records_nil rfl (.inr (by simp)) (.inr rfl)⟩
  · exact ⟨[], records_nil rfl (.inl rfl) (.inl rfl)⟩
  · exact exec_records he
  · exact ⟨_, raiseConfig_records (by simp [hs]) .illegal⟩
  · exact ⟨[], records_nil rfl (.inl rfl) (.inl rfl)⟩
  · exact absorb_records hs _ bytes
  · exact finalize_records hs _

theorem step_records {s t : State} (h : step s = .next t) : ∃ events, Records s t events := by
  obtain ⟨-, rfl⟩ | ⟨u, rest, -, hu⟩ := step_next_cases h
  · exact ⟨[], records_nil rfl (.inl rfl) (.inl rfl)⟩
  · obtain ⟨events, htrace, hfatal, hwarn⟩ := transact_records hu
    exact ⟨events, htrace, hfatal, hwarn⟩

/-! ### The obligations -/

/-- Settles O55: of all transactions only RESET clears WARN, and only the fallback of a DISP sets it. -/
theorem warnSetOnlyByFallback : Obligations.WarnSetOnlyByFallback := by
  intro s t h hne
  obtain ⟨-, rfl⟩ | ⟨u, rest, hp, hu⟩ := step_next_cases h
  · exact absurd rfl hne
  · have hhead : s.pending.head? = some u := by rw [hp]; rfl
    obtain hsame | ⟨hclear, rfl⟩ | ⟨hset, w, L, n, m, rfl, hw, hn⟩ := transact_warn_cases hu
    · exact absurd hsame hne
    · exact .inr ⟨hclear, hhead⟩
    · exact .inl ⟨hset, w, L, n, m, hhead, hw, hn⟩

/-- Settles O56: the counts over the longer trace are those of the old one and of the step's events. -/
theorem traceRecordsFaultsAndWarnings : Obligations.TraceRecordsFaultsAndWarnings := by
  intro s t h
  obtain ⟨events, htrace, hfatal, hwarn⟩ := step_records h
  refine ⟨⟨events, htrace.symm⟩, ?_, ?_⟩
  · rw [htrace, List.countP_append]
    exact congrArg (_ + ·) hfatal
  · rw [htrace, List.count_append, hwarn]

end Sys2Proof.Proofs
end

section
/-! Which transactions happen (20_memory.md R58, R59, R62; 45_host_transactions.md R186): one rule for each kind of
transaction, saying when it has a next state; every other one is refused. -/
namespace Sys2Proof.Proofs
open Sys2Proof Sys2Proof.Machine Sys2Proof.Statements

/-! ### Outcomes -/

/-- CORE has no fault that stops the machine (log 13). -/
theorem next_or_refused (o : Out) : (∃ t, o = .next t) ∨ ∃ r, o = .refused r := by
  cases o with
  | next t => exact .inl ⟨t, rfl⟩
  | fault f => nomatch f
  | refused r => exact .inr ⟨r, rfl⟩

/-- What has no next state is refused. -/
theorem refused_of_not_next {o : Out} (h : ¬ ∃ t, o = .next t) : ∃ r, o = .refused r :=
  (next_or_refused o).resolve_left h

/-! ### Commands -/

theorem exec_of_not_idle {s : State} (h : s.st ≠ .idle) (i : Instr) : exec i s = .refused (.notAccepted s.st) := by
  cases i <;> exact whenIdle_of_not_idle h _

/-- In IDLE every command has a next state: a failed check is one too. -/
theorem exec_of_idle {s : State} (h : s.st = .idle) (i : Instr) : ∃ t, exec i s = .next t := by
  cases i <;> exact ⟨_, whenIdle_of_idle h _⟩

/-- A word written to CMD, a command's or an illegal one, is a transaction in IDLE only. -/
theorem writeCommand_next_iff (w : Word) (s : State) : (∃ t, writeCommand exec w s = .next t) ↔ s.st = .idle := by
  cases hw : decode w with
  | ok i =>
    rw [writeCommand_of_ok hw]
    exact ⟨fun ⟨t, ht⟩ => (exec_next_cases ht).1, fun h => exec_of_idle h i⟩
  | error e =>
    rw [writeCommand_of_error hw]
    exact ⟨fun ⟨t, ht⟩ => (whenIdle_eq_next ht).1, fun h => ⟨_, whenIdle_of_idle h _⟩⟩

/-! ### Host reads -/

theorem accessed_eq_ok_iff {c : Config} {addr width : Nat} {r : Register} :
    accessed c addr width = .ok r ↔ width = 4 ∧ addr % 4 = 0 ∧ registerAt c addr = some r :=
  ⟨accessed_eq_ok, by rintro ⟨rfl, ha, hr⟩; exact accessed_of_register ha hr⟩

/-- A Host read happens exactly at the registers that can be read: all but CMD (R59). -/
theorem hostRead_next_iff (c : Config) (addr width : Nat) (s : State) :
    (∃ t, hostRead c addr width s = .next t) ↔ ∃ r, accessed c addr width = .ok r ∧ r ≠ .cmd := by
  unfold hostRead
  cases accessed c addr width with
  | error why => simp
  | ok r => cases r <;> simp [readStatus, readIn, readRes]

/-- The aligned addresses of the registers that can be read (R58). -/
theorem registerAt_readable_iff {c : Config} {addr : Nat} (ha : addr % 4 = 0) :
    (∃ r, registerAt c addr = some r ∧ r ≠ .cmd) ↔
      addr = 0x00004 ∨ (0x00040 ≤ addr ∧ addr < 0x00080) ∨ (0x40000 ≤ addr ∧ addr < 0x40000 + 4 * c.resWords) := by
  constructor
  · rintro ⟨r, hr, hcmd⟩
    rcases registerAt_eq_some hr with ⟨rfl, -⟩ | ⟨-, h⟩ | ⟨i, hi, -, hge, he⟩ | ⟨i, hi, -, hge, he⟩
    · exact absurd rfl hcmd
    · exact .inl h
    · exact .inr (.inl (by omega))
    · exact .inr (.inr (by omega))
  · rintro (rfl | ⟨hge, hlt⟩ | ⟨hge, hlt⟩)
    · exact ⟨_, registerAt_status c, nofun⟩
    · obtain ⟨i, rfl⟩ : ∃ i, addr = 0x00040 + 4 * i := ⟨(addr - 0x00040) / 4, by omega⟩
      exact ⟨_, registerAt_in c (by omega), nofun⟩
    · obtain ⟨i, rfl⟩ : ∃ i, addr = 0x40000 + 4 * i := ⟨(addr - 0x40000) / 4, by omega⟩
      exact ⟨_, registerAt_res c (by omega), nofun⟩

/-! ### Host writes -/

/-- Within IN the bound check of `writeIn` passes. -/
theorem writeIn_of_lt {i : Nat} (hi : i < 16) (v : Word) (s : State) :
    s.writeIn i v = { s with inp := s.inp.set i v } := by
  have hset : s.inp.setIfInBounds i v = s.inp.set i v :=
    Vector.ext fun j hj => by rw [Vector.getElem_setIfInBounds hj, Vector.getElem_set hi hj]
  rw [State.writeIn, hset]

/-- A word written to IN (R58). -/
theorem hostWrite_in (c : Config) (run : Instr → State → Out) {i : Nat} (hi : i < 16) (v : Word) (s : State) :
    hostWrite c run (0x00040 + 4 * i) 4 v s = writeInput i v s := by
  have hacc : accessed c (0x00040 + 4 * i) 4 = .ok (.inWord i) := accessed_of_register (by omega) (registerAt_in c hi)
  rw [hostWrite, hacc]

theorem hostWrite_next_iff (c : Config) (addr width : Nat) (v : Word) (s : State) :
    (∃ t, hostWrite c exec addr width v s = .next t) ↔
      s.st = .idle ∧ width = 4 ∧ addr % 4 = 0 ∧ (addr = 0x00000 ∨ (0x00040 ≤ addr ∧ addr < 0x00080)) := by
  constructor
  · rintro ⟨t, ht⟩
    obtain ⟨hw, ⟨rfl, hc⟩ | ⟨i, hi, rfl, hs, -⟩⟩ := hostWrite_eq_next ht
    · exact ⟨(writeCommand_next_iff v s).1 ⟨t, hc⟩, hw, rfl, .inl rfl⟩
    · exact ⟨hs, hw, by omega, .inr (by omega)⟩
  · rintro ⟨hs, rfl, ha, rfl | ⟨hge, hlt⟩⟩
    · rw [hostWrite_cmd]
      exact (writeCommand_next_iff v s).2 hs
    · obtain ⟨i, rfl⟩ : ∃ i, addr = 0x00040 + 4 * i := ⟨(addr - 0x00040) / 4, by omega⟩
      exact ⟨_, (hostWrite_in c exec (by omega) v s).trans (whenIdle_of_idle hs _)⟩

/-! ### Chunks -/

/-- An answer of the byte source happens in STREAM and when the port can carry it (R62, R165). -/
theorem chunkWith_next_iff (c : Config) (bytes : List Byte) (s : State) :
    (∃ t, chunkWith c bytes s = .next t) ↔ s.st = .stream ∧ bytes.length ≤ 4 * s.readWords := by
  constructor
  · rintro ⟨t, ht⟩
    obtain ⟨hs, hlen, -⟩ := chunkWith_eq_next ht
    exact ⟨hs, hlen⟩
  · rintro ⟨hs, hlen⟩
    rw [chunkWith, if_neg (by simp [hs]), if_neg (by omega)]
    split
    · exact ⟨_, rfl⟩
    · exact ⟨_, rfl⟩

/-! ### The obligations -/

/-- Settles O10: an index up to 15 reaches its IN word, which is written in IDLE only; from index 16 on the address is
neither CMD nor an IN word, so that no write happens there. -/
theorem writeInputStores : Obligations.WriteInputStores := by
  refine fun v s => ⟨fun i => ?_, fun i hi => ?_⟩
  · rw [step_arriving, transact_memWrite, hostWrite_in _ _ i.isLt]
    refine ⟨fun hs => ?_, fun hs => whenIdle_of_not_idle hs _⟩
    rw [writeInput, whenIdle_of_idle hs, writeIn_of_lt i.isLt]
  · rw [step_arriving, transact_memWrite]
    refine refused_of_not_next ?_
    rw [hostWrite_next_iff]
    omega

/-- Settles O14: a read happens at a register other than CMD, by its width, alignment and address. -/
theorem readsAcceptedExactly : Obligations.ReadsAcceptedExactly := by
  refine fun addr width s => ⟨?_, refused_of_not_next⟩
  rw [step_arriving, transact_memRead, hostRead_next_iff]
  simp only [accessed_eq_ok_iff, and_assoc, exists_and_left]
  exact and_congr_right fun _ => and_congr_right registerAt_readable_iff

/-- Settles O15: a write happens at CMD and at IN, both in IDLE only. -/
theorem writesAcceptedExactly : Obligations.WritesAcceptedExactly := by
  refine fun addr width v s => ⟨?_, refused_of_not_next⟩
  rw [step_arriving, transact_memWrite, hostWrite_next_iff]

/-- Settles O16: the step is CHUNK, with its two tests. -/
theorem chunksAcceptedExactly : Obligations.ChunksAcceptedExactly := by
  refine fun bytes s => ⟨?_, refused_of_not_next⟩
  rw [step_arriving, transact_chunk]
  exact chunkWith_next_iff _ bytes s

/-- Settles O9: the meaning of each of the eight commands tests IDLE first. -/
theorem commandsRefusedOutsideIdle : Obligations.CommandsRefusedOutsideIdle :=
  fun i _ h => exec_of_not_idle h i

/-- Settles O17: RESET is `applyReset`, which draws one word for each of the RES_WORDS places. -/
theorem resetClearsControlState : Obligations.ResetClearsControlState := by
  intro s
  refine ⟨s.applyReset Config.core, ?_, rfl, rfl, rfl, rfl, ?_, rfl, rfl, rfl⟩
  · rw [step_arriving, transact_reset]
  · rw [State.applyReset_res, List.length_map, List.length_range]

end Sys2Proof.Proofs
end

section
/-! Command words (30_encoding.md R80, R86 to R88): the four fields as bits of the word, the decoder and the encoder as
inverses of each other, and what a command word written to CMD does. -/
namespace Sys2Proof.Proofs
open Sys2Proof Sys2Proof.Machine Sys2Proof.Statements Sys2Proof.Laws Sys2Proof.Laws.EncodeFields

/-! ### The fields of a word -/

theorem opField_eq_opBits (w : Word) : opField w = opBits w := by
  simp only [opField, opBits, BitVec.toNat_ushiftRight, BitVec.extractLsb'_toNat, Nat.shiftRight_eq_div_pow]
  omega

theorem selField_eq_selBits (w : Word) : selField w = selBits w := by
  rw [selField, selBits, BitVec.toNat_ushiftRight, BitVec.extractLsb'_toNat]

theorem inSizeField_eq_inSizeBits (w : Word) : inSizeField w = inSizeBits w := by
  rw [inSizeField, inSizeBits, BitVec.toNat_ushiftRight, BitVec.extractLsb'_toNat]

theorem outSizeField_eq_outSizeBits (w : Word) : outSizeField w = outSizeBits w := by
  rw [outSizeField, outSizeBits, BitVec.extractLsb'_toNat, Nat.shiftRight_zero]

/-- The case table of R88, over the bits of the word. -/
theorem decode_eq_decodeFields_bits (w : Word) :
    decode w = decodeFields (opBits w) (selBits w) (inSizeBits w) (outSizeBits w) := by
  rw [decode, opField_eq_opBits, selField_eq_selBits, inSizeField_eq_inSizeBits, outSizeField_eq_outSizeBits]

/-- The fields leave no bit of the word out. -/
theorem packCommand_fields_of_word (w : Word) :
    packCommand (opField w) (selField w) (inSizeField w) (outSizeField w) = w := by
  refine BitVec.eq_of_toNat_eq ?_
  simp only [packCommand, opField, selField, inSizeField, outSizeField, BitVec.toNat_ofNat, BitVec.toNat_ushiftRight,
    Nat.shiftRight_eq_div_pow]
  omega

/-! ### Methods -/

theorem selOfMethod_methodOfSel (sel : Nat) : selOfMethod (methodOfSel sel) = sel := by
  unfold methodOfSel
  split_ifs with hmd4
  · exact hmd4.symm
  · rfl
  · rfl

theorem methodOfSel_wf {sel : Nat} (h : sel < 16) : (methodOfSel sel).wf = true := by
  unfold methodOfSel
  split_ifs with hmd4 hlevel
  · rfl
  · simp [Method.wf, hlevel]
  · simp only [Method.wf, Bool.and_eq_true, decide_eq_true_eq, bne_iff_ne, Bool.not_eq_true', Bool.and_eq_false_iff,
      decide_eq_false_iff_not]
    omega

/-! ### The decoder and the encoder -/

/-- The word of every command holds its operands, by the lemmas of its constructor. -/
theorem fields_encode (i : Instr) : Statement i := by
  cases i with
  | cgen L n m => exact cgen L n m
  | c128 L n m => exact c128 L n m
  | c256 L n m => exact c256 L n m
  | c384 L n m => exact c384 L n m
  | c512 L n m => exact c512 L n m
  | disp method n m => exact disp method n m
  | expand method n T => exact expand method n T
  | digest L d => exact digest L d

theorem encode_eq_packCommand (i : Instr) :
    encode i = packCommand (fieldsOf i).1 (fieldsOf i).2.1 (fieldsOf i).2.2.1 (fieldsOf i).2.2.2 := by
  cases i <;> rfl

/-- OP selects the constructor, and a method is what its id names. -/
theorem decodeFields_fieldsOf {i : Instr} (h : i.wf = true) :
    decodeFields (fieldsOf i).1 (fieldsOf i).2.1 (fieldsOf i).2.2.1 (fieldsOf i).2.2.2 = .ok i := by
  cases i with
  | disp method n m =>
    simp only [Instr.wf, Bool.and_eq_true] at h
    simp only [fieldsOf, decodeFields, (methodOfSel_selOfMethod h.1.1).2]
  | expand method n T =>
    simp only [Instr.wf, Bool.and_eq_true] at h
    simp only [fieldsOf, decodeFields, (methodOfSel_selOfMethod h.1.1).2]
  | _ => rfl

/-- What the case table answers is a command with these operands, well formed when each fits its field. -/
theorem decodeFields_eq_ok {op sel n m : Nat} {i : Instr} (hsel : sel < 16) (hn : n < 256) (hm : m < 65536)
    (h : decodeFields op sel n m = .ok i) : i.wf = true ∧ fieldsOf i = (op, sel, n, m) := by
  have hlevel : (levelFits sel && inSizeFits n && outSizeFits m) = true := by
    simp [levelFits, inSizeFits, outSizeFits, hsel, hn, hm]
  have hmethod : ((methodOfSel sel).wf && inSizeFits n && outSizeFits m) = true := by
    simp [methodOfSel_wf hsel, inSizeFits, outSizeFits, hn, hm]
  unfold decodeFields at h
  split at h
  case h_1 | h_2 | h_3 | h_4 | h_5 => cases h; exact ⟨hlevel, rfl⟩
  case h_6 | h_7 => cases h; exact ⟨hmethod, by rw [fieldsOf, selOfMethod_methodOfSel]⟩
  case h_8 =>
    split_ifs at h with hzero
    subst hzero
    cases h
    exact ⟨by simp [Instr.wf, levelFits, outSizeFits, hsel, hm], rfl⟩
  case h_9 => cases h

theorem decode_encode {i : Instr} (h : i.wf = true) : decode (encode i) = .ok i := by
  have hfields := fields_encode i h
  rw [← decodeFields_fieldsOf h, ← hfields, decode]

theorem wf_and_encode_of_decode {w : Word} {i : Instr} (h : decode w = .ok i) : i.wf = true ∧ encode i = w := by
  have hsel : selField w < 16 := Nat.mod_lt _ (by decide)
  have hn : inSizeField w < 256 := Nat.mod_lt _ (by decide)
  have hm : outSizeField w < 65536 := Nat.mod_lt _ (by decide)
  obtain ⟨hwf, hfields⟩ := decodeFields_eq_ok hsel hn hm h
  refine ⟨hwf, ?_⟩
  rw [encode_eq_packCommand, hfields]
  exact packCommand_fields_of_word w

theorem decode_eq_ok_iff {w : Word} {i : Instr} : decode w = .ok i ↔ i.wf = true ∧ encode i = w :=
  ⟨wf_and_encode_of_decode, by rintro ⟨hwf, rfl⟩; exact decode_encode hwf⟩

/-! ### Illegal words -/

theorem decodeFields_error_iff (op sel n m : Nat) :
    (∃ e, decodeFields op sel n m = .error e) ↔ op = 0 ∨ 9 ≤ op ∨ (op = 8 ∧ n ≠ 0) := by
  unfold decodeFields
  split
  case h_8 => by_cases hzero : n = 0 <;> simp [hzero]
  case h_9 => exact ⟨fun _ => by grind, fun _ => ⟨_, rfl⟩⟩
  all_goals simp

/-- The words of R87's list are the ones the decoder rejects. -/
theorem decode_error_iff_illegalWord (w : Word) : (∃ e, decode w = .error e) ↔ IllegalWord w := by
  rw [decode_eq_decodeFields_bits, decodeFields_error_iff, IllegalWord]

theorem decode_of_not_illegalWord {w : Word} (h : ¬ IllegalWord w) : ∃ i, decode w = .ok i := by
  cases hd : decode w with
  | ok i => exact ⟨i, rfl⟩
  | error e => exact absurd ((decode_error_iff_illegalWord w).1 ⟨e, hd⟩) h

/-! ### A word written to CMD -/

theorem step_write_cmd (w : Word) (s : State) :
    step (arriving (.memWrite 0x00000 4 w) s) = writeCommand exec w s := by
  rw [step_arriving, transact_memWrite, hostWrite_cmd]

/-- Fault entry from IDLE, and nothing else (R87, R196). -/
theorem step_write_illegalWord {w : Word} {s : State} (hw : IllegalWord w) (hs : s.st = .idle) :
    step (arriving (.memWrite 0x00000 4 w) s) = .next (faulted s .illegal) := by
  obtain ⟨e, hd⟩ := (decode_error_iff_illegalWord w).2 hw
  rw [step_write_cmd, writeCommand_of_error hd, whenIdle_of_idle hs]
  rfl

/-! ### The obligations -/

/-- Settles O1: the fields of a command's word are its operands, and the case table gives the command back from them. -/
theorem decodeEncodeRoundTrip : Obligations.DecodeEncodeRoundTrip := fun _ => decode_encode

/-- Settles O2: the command read from a word has that word's fields as its operands, and the fields make up the word. -/
theorem encodeDecodeRoundTrip : Obligations.EncodeDecodeRoundTrip := fun _ _ => wf_and_encode_of_decode

/-- Settles O3: each clause is the row of the case table for its OP. -/
theorem decoderFollowsOpcodeMap : Obligations.DecoderFollowsOpcodeMap := by
  intro w sel n m method
  have hrow {op : Nat} (hop : opBits w = op) : decode w = decodeFields op sel n m := by
    rw [decode_eq_decodeFields_bits, hop]
  refine ⟨hrow, hrow, hrow, hrow, hrow, hrow, hrow, fun hop hn => ?_, fun hw => ⟨?_, fun s => ?_⟩⟩
  · exact (hrow hop).trans (if_pos hn)
  · exact (decode_error_iff_illegalWord w).2 hw
  · exact step_write_illegalWord hw

/-- Settles O4: the decoder rejects the listed words only, and the command of any other word runs in the step. -/
theorem illegalWordsRaise : Obligations.IllegalWordsRaise := by
  refine fun w s hs => ⟨fun hw => ⟨step_write_illegalWord hw hs, rfl⟩, fun hw => ?_⟩
  obtain ⟨i, hd⟩ := decode_of_not_illegalWord hw
  refine ⟨i, (wf_and_encode_of_decode hd).1, hd, ?_⟩
  rw [step_write_cmd, writeCommand_of_ok hd]

/-- Settles O5: each word is the encoding of its command, which is well formed. -/
theorem workedEncodingsDecode : Obligations.WorkedEncodingsDecode := by
  unfold Obligations.WorkedEncodingsDecode
  simp only [decode_eq_ok_iff]
  decide

end Sys2Proof.Proofs
end

section
/-! The generic core one step at a time (40_compress_generic.md R103 to R105): the substitution step at its two circular
neighbours, and the rounds as passes of substitutions and rotations. -/
namespace Sys2Proof.Proofs
open Sys2Proof Sys2Proof.Machine

/-! ### The substitution step -/

/-- The neighbours are two words: on a ring of at least 3 positions, one step up and one step down differ. -/
theorem neighbours_ne {P i : Nat} (hP : 3 ≤ P) (hi : i < P) : (i + 1) % P ≠ (i + P - 1) % P := by
  obtain rfl | hpos : i = 0 ∨ 0 < i := by omega
  · rw [Nat.zero_add, Nat.zero_add, Nat.mod_eq_of_lt (by omega), Nat.mod_eq_of_lt (by omega)]
    omega
  · have hdown : (i + P - 1) % P = i - 1 := by
      rw [show i + P - 1 = i - 1 + P by omega, Nat.add_mod_right, Nat.mod_eq_of_lt (by omega)]
    obtain hup | hlast : i + 1 < P ∨ i + 1 = P := by omega
    · rw [hdown, Nat.mod_eq_of_lt hup]; omega
    · rw [hdown, hlast, Nat.mod_self]; omega

/-- Both neighbours receive the entry (R104). Being distinct, neither receives it twice. -/
theorem subStep_getD (c : Config) (r : Nat) {P i : Nat} {W : List Word} (hP : 3 ≤ P) (hW : W.length = P) (hi : i < P)
    (j : Nat) :
    (subStep c r P W i).getD j 0 =
      if j = (i + 1) % P ∨ j = (i + P - 1) % P then
        W.getD j 0 ^^^ c.sbox (tableIndex r i) (lowByte (W.getD i 0))
      else W.getD j 0 := by
  have hne := neighbours_ne hP hi
  have hup : (i + 1) % P < W.length := hW ▸ Nat.mod_lt _ (by omega)
  have hdown : (i + P - 1) % P < W.length := hW ▸ Nat.mod_lt _ (by omega)
  rw [subStep, xorAt_getD _ _ _ _ (by rwa [xorAt_length]), xorAt_getD _ _ _ _ hup]
  by_cases h : j = (i + P - 1) % P
  · simp [h, hne.symm]
  · simp [h]

theorem lowByte_eq_extractLsb' (w : Word) : lowByte w = w.extractLsb' 0 8 := by
  rw [lowByte, BitVec.setWidth_eq_extractLsb' (by decide)]

/-! ### The obligations -/

/-- Settles O21: the step at a position touches its two neighbours, each once. -/
theorem substitutionStepNeighbours : Obligations.SubstitutionStepNeighbours := by
  intro c r P i W hP hW hi
  have h3 : 3 ≤ P := by omega
  refine ⟨neighbours_ne h3 hi, (subStep_length c r P W i).trans hW, fun j _ => ?_⟩
  rw [subStep_getD c r h3 hW hi, lowByte_eq_extractLsb', tableIndex]

/-- Settles O22: the loop over the rounds takes the last round last, and so does the loop over the positions. -/
theorem coreIsRoundsOfFourPasses : Obligations.CoreIsRoundsOfFourPasses := by
  intro c L P X sub rot
  have hpass (p : Nat) (W : List Word) : corePass c L P W p = rot (rotAmount p) (sub L P W) := rfl
  refine ⟨rfl, ?_, fun r k W => ⟨rfl, foldl_range_succ _ _ _⟩⟩
  rw [coreRounds_succ, coreRound_eq, hpass, hpass, hpass, hpass]
  rfl

end Sys2Proof.Proofs
end

section
/-! The tables a compression reads (40_compress_generic.md R107): round `r` of the generic core and of every variant reads
the two tables 2r and 2r + 1, so level `L` reads those below 2L. -/
namespace Sys2Proof.Proofs
open Sys2Proof Sys2Proof.Machine Sys2Proof.Statements

theorem tableIndex_lt {r L : Nat} (hr : r < L) (i : Nat) : tableIndex r i < 2 * L := by
  unfold tableIndex
  omega

/-- The rounds every variant runs, over its own pass (41_compress_specialized.md R122 to R125). -/
def variantRounds {α : Type} (pass : (Byte → Word) → (Byte → Word) → Nat → α → α) (c : Config) (L : Nat) (b : α) : α :=
  (List.range L).foldl
    (fun b r => (List.range 4).foldl (fun b p => pass (c.sbox (2 * r)) (c.sbox (2 * r + 1)) (rotAmount p) b) b) b

theorem rounds128_eq : rounds128 = variantRounds pass128 := rfl

theorem rounds256_eq : rounds256 = variantRounds pass256 := rfl

theorem rounds384_eq : rounds384 = variantRounds pass384 := rfl

theorem rounds512_eq : rounds512 = variantRounds pass512 := rfl

/-! ### Configurations whose tables agree below 2L -/

section
variable {c c' : Config} {L : Nat} (h : ∀ t < 2 * L, ∀ b, c.sbox t b = c'.sbox t b)
include h

theorem coreRounds_congr_tables (P : Nat) (X : List Word) : coreRounds c L P X = coreRounds c' L P X := by
  refine List.foldl_ext _ _ _ fun W r hr => ?_
  have hstep : subStep c r P = subStep c' r P := by
    funext W i
    simp only [subStep, h _ (tableIndex_lt (List.mem_range.1 hr) i)]
  simp only [coreRound_eq, corePass, subPass, hstep]

theorem variantRounds_congr_tables {α : Type} (pass : (Byte → Word) → (Byte → Word) → Nat → α → α) (b : α) :
    variantRounds pass c L b = variantRounds pass c' L b := by
  refine List.foldl_ext _ _ _ fun b r hr => ?_
  have hr : r < L := List.mem_range.1 hr
  have heven : c.sbox (2 * r) = c'.sbox (2 * r) := funext (h _ (by omega))
  have hodd : c.sbox (2 * r + 1) = c'.sbox (2 * r + 1) := funext (h _ (by omega))
  rw [heven, hodd]

theorem compressGeneric_congr_tables (inp : List Word) (n m : Nat) :
    compressGeneric c L inp n m = compressGeneric c' L inp n m := by
  simp only [compressGeneric, coreRounds_congr_tables h]

theorem variant_congr_tables (inp : List Word) (n m : Nat) :
    ∀ v ∈ variantFunctions, v.1 c L inp n m = v.1 c' L inp n m := by
  simp only [variantFunctions, List.forall_mem_cons]
  refine ⟨?_, ?_, ?_, ?_, nofun⟩
  · simp only [compress128, rounds128_eq, variantRounds_congr_tables h]
  · simp only [compress256, rounds256_eq, variantRounds_congr_tables h]
  · simp only [compress384, rounds384_eq, variantRounds_congr_tables h]
  · simp only [compress512, rounds512_eq, variantRounds_congr_tables h]

end

/-! ### The obligation -/

/-- Settles O23: the checks read no table, and the rounds read those below 2L. -/
theorem tablesReadByLevel : Obligations.TablesReadByLevel := fun _ _ _ n m inp h =>
  ⟨compressGeneric_congr_tables h inp n m, variant_congr_tables h inp n m⟩

end Sys2Proof.Proofs
end

section
/-! What the spec derives of CompressGeneric (40_compress_generic.md R109, R110): the core under all-zero tables, the words
two output sizes share, and the padded input as an input of its own. -/
namespace Sys2Proof.Proofs
open Sys2Proof Sys2Proof.Machine

/-! ### All-zero tables -/

theorem xorAt_zero (W : List Word) (i : Nat) : xorAt W i 0 = W := by
  have hword : W.getD i 0 ^^^ 0 = W.getD i 0 := BitVec.xor_zero
  rw [xorAt, hword]
  by_cases hi : i < W.length
  · rw [List.getD_eq_getElem _ _ hi, List.set_getElem_self]
  · exact List.set_eq_of_length_le (by omega)

section
variable {c : Config} (h : ∀ t b, c.sbox t b = 0)
include h

theorem subPass_of_zero_tables (r P : Nat) (W : List Word) : subPass c r P W = W := by
  refine foldl_range_induct (· = W) _ P W rfl fun V i _ hV => ?_
  rw [subStep, h, xorAt_zero, xorAt_zero, hV]

/-- Nothing is left of a round but its four rotations, which make whole turns (R105). -/
theorem coreRound_of_zero_tables (P : Nat) (W : List Word) (r : Nat) : coreRound c P W r = W := by
  have hturn : (fun w => ror32 w (rotAmount 3)) ∘ (fun w => ror32 w (rotAmount 2)) ∘
      (fun w => ror32 w (rotAmount 1)) ∘ (fun w => ror32 w (rotAmount 0)) = id := funext roundRestoresAlignment
  simp only [coreRound_eq, corePass, subPass_of_zero_tables h, List.map_map, hturn, List.map_id]

theorem coreRounds_of_zero_tables (L P : Nat) (X : List Word) : coreRounds c L P X = X :=
  foldl_range_induct (· = X) _ L X rfl fun V r _ hV => by rw [coreRound_of_zero_tables h, hV]

end

/-! ### The fold and the padded input -/

/-- The fold of a padded input with a block of its own length, by the padded words. -/
theorem foldOutput_padInput {P m : Nat} (n : Nat) (inp W : List Word) (hm : m ≤ P) :
    foldOutput P m (padInput P n inp) W =
      (List.range m).map fun k => padWord n inp k ^^^ W.getD (P - 1 - k) 0 := by
  refine List.map_congr_left fun k hk => ?_
  have hk : k < m := List.mem_range.1 hk
  rw [padInput_getD (by omega)]

/-- A word of the fold does not depend on how many are asked for. -/
theorem foldOutput_take {m m' : Nat} (P : Nat) (X W : List Word) (h : m ≤ m') :
    (foldOutput P m' X W).take m = foldOutput P m X W := by
  rw [foldOutput, foldOutput, ← List.map_take, List.take_range, Nat.min_eq_left h]

theorem pad4_pad4 (n : Nat) : pad4 (pad4 n) = pad4 n := by
  unfold pad4
  omega

theorem padInput_padInput (P n : Nat) (inp : List Word) : padInput P P (padInput P n inp) = padInput P n inp := by
  refine List.map_congr_left fun i hi => ?_
  have hi : i < P := List.mem_range.1 hi
  rw [padWord, if_pos hi, padInput_getD hi]

/-! ### The obligations -/

/-- Settles O24: the block after the rounds is the padded input, so the fold takes both its words from there. -/
theorem zeroTablesFoldInput : Obligations.ZeroTablesFoldInput := by
  intro c L n m inp hzero hL₁ hL₄ hm hmn hn hpad
  rw [compressGeneric_of_valid c inp ⟨hL₁, hL₄⟩ hm hmn hn hpad, coreRounds_of_zero_tables hzero,
    foldOutput_padInput n inp _ (by omega)]
  refine congrArg Except.ok (List.map_congr_left fun k _ => ?_)
  rw [padInput_getD (by omega)]
  rfl

/-- Settles O25: both outputs are folds of the same two blocks. -/
theorem outputLengthConsistency : Obligations.OutputLengthConsistency := by
  intro c L n k inp out out' h h'
  obtain ⟨-, hlen, rfl⟩ := compressGeneric_eq_ok h
  obtain ⟨-, -, rfl⟩ := compressGeneric_eq_ok h'
  exact ⟨hlen, foldOutput_take _ _ _ (Nat.le_succ k)⟩

/-- Settles O26: the padded input has a size that needs no padding, and passes the same checks. -/
theorem paddingTransparency : Obligations.PaddingTransparency := by
  intro c L n m inp out h
  obtain ⟨⟨hL, hm, hmn, hn, hpad⟩, -, rfl⟩ := compressGeneric_eq_ok h
  have hsize : n ≤ pad4 n ∧ pad4 n ≤ 16 := by unfold pad4; omega
  have hpadded := compressGeneric_of_valid c (padInput (pad4 n) n inp) hL hm (hmn.trans hsize.1) hsize.2
    ((pad4_pad4 n).symm ▸ hpad)
  rwa [pad4_pad4, padInput_padInput] at hpadded

end Sys2Proof.Proofs
end

section
/-! CGEN in IDLE (40_compress_generic.md R100, R101, R106): the end of a command from its checks, and the five checks. -/
namespace Sys2Proof.Proofs
open Sys2Proof Sys2Proof.Machine Sys2Proof.Statements

/-! ### The two ends of a command -/

section
variable {s : State} (hs : s.st = .idle)
include hs

/-- The output is written and DONE set, and nothing else (10_state.md R22, R29). -/
theorem whenIdle_conclude_of_ok {r : Except ErrCode (List Word)} {out : List Word} (hr : r = .ok out) :
    whenIdle s (.next (s.clearDone.conclude r)) = .next (completed s out) := by
  rw [whenIdle_of_idle hs, hr]
  rfl

/-- Fault entry (60_exceptions.md R196). -/
theorem whenIdle_conclude_of_error {r : Except ErrCode (List Word)} {code : ErrCode} (hr : r = .error code) :
    whenIdle s (.next (s.clearDone.conclude r)) = .next (faulted s code) := by
  rw [whenIdle_of_idle hs, hr]
  rfl

/-! ### CGEN -/

theorem exec_cgen_of_ok {L n m : Nat} {out : List Word}
    (hr : compressGeneric Config.core L s.inWords n m = .ok out) :
    exec (.cgen L n m) s = .next (completed s out) :=
  whenIdle_conclude_of_ok hs hr

theorem exec_cgen_of_failing {L n m : Nat} {code : ErrCode} (hc : firstFailing (genericChecks L n m) = some code) :
    exec (.cgen L n m) s = .next (faulted s code) :=
  whenIdle_conclude_of_error hs (checked_of_some hc _)

end

/-! ### The obligations -/

/-- Settles O27: an accepted CGEN passes its checks, and its answer is the fold. -/
theorem genericCompressionCompletes : Obligations.GenericCompressionCompletes := by
  intro L n m s hs hL₁ hL₄ hm hmn hn hpad
  exact exec_cgen_of_ok hs (compressGeneric_of_valid Config.core s.inWords ⟨hL₁, hL₄⟩ hm hmn hn hpad)

/-- Settles O28: the first failing check of the table decides the code. -/
theorem genericChecksInOrder : Obligations.GenericChecksInOrder := by
  intro L n m s hs levelOk
  have hlevel : levelOk ↔ badLevel L = false := by
    rw [← Bool.not_eq_true, badLevel_eq_true_iff]
  simp only [hlevel]
  refine ⟨fun h₁ => ?_, fun h₁ h₂ => ?_, fun h₁ h₂ h₃ => ?_, fun h₁ h₂ h₃ h₄ => ?_, fun h₁ h₂ h₃ h₄ h₅ => ?_⟩
  · exact exec_cgen_of_failing hs (by simp [genericChecks, h₁])
  · exact exec_cgen_of_failing hs (by simp [genericChecks, h₁, h₂])
  · exact exec_cgen_of_failing hs (by simp [genericChecks, h₁, h₂, h₃])
  · exact exec_cgen_of_failing hs (by simp [genericChecks, h₁, h₂, h₃, h₄])
  · exact exec_cgen_of_failing hs (by simp [genericChecks, h₁, h₂, h₃, h₄, pad4, h₅])

end Sys2Proof.Proofs
end

section
/-! The transfers of the sequencer state (10_state.md R28): what a command and a transaction do to ST. -/
namespace Sys2Proof.Proofs
open Sys2Proof Sys2Proof.Machine

/-- A command ends in IDLE or in FAULT, or is a DIGEST that opens the stream. -/
theorem exec_st_cases {i : Instr} {s t : State} (h : exec i s = .next t) :
    s.st = .idle ∧ (t.st = .idle ∨ t.st = .fault ∨ (t.st = .stream ∧ ∃ L d, i = .digest L d)) := by
  obtain ⟨hs, ⟨out, -, -, -, rfl⟩ | ⟨code, rfl⟩ | ⟨L, n, m, code, -, -, -, -, rfl⟩ | ⟨L, d, hi, -, -, rfl⟩⟩ :=
    exec_next_cases h
  · exact ⟨hs, .inl hs⟩
  · exact ⟨hs, .inr (.inl rfl)⟩
  · exact ⟨hs, .inr (.inl rfl)⟩
  · exact ⟨hs, .inr (.inr ⟨rfl, L, d, hi⟩)⟩

/-- An open digest stays open over a chunk with bytes (44_digest.md R169). -/
theorem absorb_st {s : State} (c : Config) (bytes : List Byte) (h : s.DigestValid) :
    (s.absorb c bytes).st = s.st := by
  obtain ⟨out, -, -, heq⟩ := State.absorb_of_valid c bytes h
  rw [heq, State.writeHead_st, State.receive_st]

/-- The empty chunk closes it (44_digest.md R170). -/
theorem finalize_st {s : State} (c : Config) (h : s.DigestValid) : (s.finalize c).st = .idle := by
  obtain ⟨out, -, -, heq⟩ := State.finalize_of_valid c h
  rw [heq]

/-- The rows of R28's table, by the transaction that happens. -/
theorem transact_st_cases {u : Transaction} {s t : State} (hinv : s.Inv Config.core)
    (h : transact Config.core exec u s = .next t) :
    t.st = s.st ∨ (u = .reset ∧ t.st = .idle) ∨
      (s.st = .idle ∧ t.st = .stream ∧ ∃ w L d, u = .memWrite 0x00000 4 w ∧ decode w = .ok (.digest L d)) ∨
      (s.st = .idle ∧ t.st = .fault ∧ ∃ w, u = .memWrite 0x00000 4 w) ∨
      (s.st = .stream ∧ t.st = .idle ∧ u = .chunk []) := by
  rcases transact_next_cases h with ⟨hu, rfl⟩ | ⟨_, _, v, -, rfl⟩ | ⟨w, i, hu, hw, he⟩ | ⟨w, e, hu, -, hs, rfl⟩ |
    ⟨i, v, -, -, -, rfl⟩ | ⟨bytes, -, -, hs, -, rfl⟩ | ⟨hu, hs, rfl⟩
  · exact .inr (.inl ⟨hu, rfl⟩)
  · exact .inl rfl
  · obtain ⟨hs, ht | ht | ⟨ht, L, d, rfl⟩⟩ := exec_st_cases he
    · exact .inl (ht.trans hs.symm)
    · exact .inr (.inr (.inr (.inl ⟨hs, ht, w, hu⟩)))
    · exact .inr (.inr (.inl ⟨hs, ht, w, L, d, hu, hw⟩))
  · exact .inr (.inr (.inr (.inl ⟨hs, rfl, w, hu⟩)))
  · exact .inl rfl
  · exact .inl (absorb_st _ bytes (inv_digestValid hinv hs))
  · exact .inr (.inr (.inr (.inr ⟨hs, finalize_st _ (inv_digestValid hinv hs), hu⟩)))

/-- Settles O54: waiting keeps ST, and a transaction transfers it by a row of the table. -/
theorem sequencerTransfers : Obligations.SequencerTransfers := by
  intro s t hinv h hne
  obtain ⟨-, rfl⟩ | ⟨u, rest, hp, hu⟩ := step_next_cases h
  · exact absurd rfl hne
  · have htransfer := (transact_st_cases (withPending_keeps_inv hinv rest) hu).resolve_left hne
    simpa [hp] using htransfer

end Sys2Proof.Proofs
end

section
/-! The variants in IDLE (41_compress_specialized.md R121, R126): the accepted requests, and the five checks. -/
namespace Sys2Proof.Proofs
open Sys2Proof Sys2Proof.Machine Sys2Proof.Statements

/-- A failing check of a variant ends its command in fault entry (R126). -/
theorem exec_variant_of_failing {s : State} (hs : s.st = .idle) {L n m : Nat} {code : ErrCode} :
    ∀ v ∈ variants, firstFailing (variantChecks v.2.1 v.2.2.1 v.2.2.2 L n m) = some code →
      exec (v.1 L n m) s = .next (faulted s code) := by
  simp only [variants, List.forall_mem_cons]
  refine ⟨fun hc => ?c128, fun hc => ?c256, fun hc => ?c384, fun hc => ?c512, nofun⟩ <;>
    exact whenIdle_conclude_of_error hs (checked_of_some hc _)

/-- A command whose computation answers `m` words completes with them (R121). -/
theorem completes_of_ok {s : State} (hs : s.st = .idle) {r : Except ErrCode (List Word)} {out : List Word} {m : Nat}
    (hr : r = .ok out) (hlen : out.length = m) :
    ∃ out, out.length = m ∧ r = .ok out ∧ whenIdle s (.next (s.clearDone.conclude r)) = .next (completed s out) :=
  ⟨out, hlen, hr, whenIdle_conclude_of_ok hs hr⟩

/-! ### The obligations -/

/-- Settles O29: an accepted request passes the variant's checks, so its `m` words are written. -/
theorem variantsComplete : Obligations.VariantsComplete := by
  intro L n m s hs hL₁ hL₄ hm hmn
  refine ⟨fun hlo hhi hcap => ?c128, fun hlo hhi hcap => ?c256, fun hlo hhi hcap => ?c384, fun hlo hhi hcap => ?c512⟩
  case c128 =>
    exact completes_of_ok hs (compress128_of_valid _ _ ⟨hL₁, hL₄⟩ ⟨hlo, hhi⟩ hcap hm hmn)
      ((output128_length ..).trans (min_eq_left hcap))
  case c256 =>
    exact completes_of_ok hs (compress256_of_valid _ _ ⟨hL₁, hL₄⟩ ⟨hlo, hhi⟩ hcap hm hmn)
      ((output256_length ..).trans (min_eq_left hcap))
  case c384 =>
    exact completes_of_ok hs (compress384_of_valid _ _ ⟨hL₁, hL₄⟩ ⟨hlo, hhi⟩ hcap hm hmn)
      ((output384_length ..).trans (min_eq_left hcap))
  case c512 =>
    exact completes_of_ok hs (compress512_of_valid _ _ ⟨hL₁, hL₄⟩ ⟨hlo, hhi⟩ hcap hm hmn)
      ((output512_length ..).trans (min_eq_left hcap))

/-- Settles O30: the first failing check of the variant's table decides the code. -/
theorem variantChecksInOrder : Obligations.VariantChecksInOrder := by
  intro v hv L n m s hs run lo hi cap levelOk
  have hfail {code : ErrCode} (hc : firstFailing (variantChecks lo hi cap L n m) = some code) :
      run = .next (faulted s code) := exec_variant_of_failing hs v hv hc
  have hlevel : levelOk ↔ badLevel L = false := by
    rw [← Bool.not_eq_true, badLevel_eq_true_iff]
  simp only [hlevel]
  refine ⟨fun h₁ => ?_, fun h₁ h₂ => ?_, fun h₁ h₂ h₃ => ?_, fun h₁ h₂ h₃ h₄ => ?_, fun h₁ h₂ h₃ h₄ h₅ => ?_⟩
  · exact hfail (by simp [variantChecks, h₁])
  · exact hfail (by simp [variantChecks, h₁, h₂])
  · exact hfail (by simp [variantChecks, h₁, h₂, h₃])
  · exact hfail (by simp [variantChecks, h₁, h₂, h₃, h₄])
  · exact hfail (by simp [variantChecks, h₁, h₂, h₃, h₄, h₅])

end Sys2Proof.Proofs
end

section
/-! The variants and the generic core (41_compress_specialized.md R127): pass by pass a datapath is the generic core at
its block length P, its output assignments are the fold, and its checks accept what the generic core accepts. -/
namespace Sys2Proof.Proofs
open Sys2Proof Sys2Proof.Machine Sys2Proof.Statements

/-! ### Rounds and output assignments -/

/-- A datapath whose pass is the generic pass on its registers runs the generic rounds on them. -/
theorem variantRounds_words {α : Type} {pass : (Byte → Word) → (Byte → Word) → Nat → α → α} (words : α → List Word)
    {P : Nat} {c : Config}
    (hpass : ∀ r p b, words (pass (c.sbox (2 * r)) (c.sbox (2 * r + 1)) (rotAmount p) b) = corePass c r P (words b) p)
    (L : Nat) (b : α) : words (variantRounds pass c L b) = coreRounds c L P (words b) := by
  refine (List.foldl_hom words fun b r => ?_).symm
  exact List.foldl_hom words fun b p => (hpass r p b).symm

theorem rounds128_words (c : Config) (L : Nat) (b : Block128) : (rounds128 c L b).words = coreRounds c L 4 b.words :=
  variantRounds_words Block128.words (pass128_words c) L b

theorem rounds256_words (c : Config) (L : Nat) (b : Block256) : (rounds256 c L b).words = coreRounds c L 8 b.words :=
  variantRounds_words Block256.words (pass256_words c) L b

theorem rounds384_words (c : Config) (L : Nat) (b : Block384) : (rounds384 c L b).words = coreRounds c L 12 b.words :=
  variantRounds_words Block384.words (pass384_words c) L b

theorem rounds512_words (c : Config) (L : Nat) (b : Block512) : (rounds512 c L b).words = coreRounds c L 16 b.words :=
  variantRounds_words Block512.words (pass512_words c) L b

/-! The output assignments, all of them, are the fold to the cap; the first `m` are the fold to `m` words. -/

theorem output128_eq_foldOutput {m : Nat} (hm : m ≤ 2) (x b : Block128) :
    output128 m x b = foldOutput 4 m x.words b.words := foldOutput_take 4 x.words b.words hm

theorem output256_eq_foldOutput {m : Nat} (hm : m ≤ 6) (x b : Block256) :
    output256 m x b = foldOutput 8 m x.words b.words := foldOutput_take 8 x.words b.words hm

theorem output384_eq_foldOutput {m : Nat} (hm : m ≤ 10) (x b : Block384) :
    output384 m x b = foldOutput 12 m x.words b.words := foldOutput_take 12 x.words b.words hm

theorem output512_eq_foldOutput {m : Nat} (hm : m ≤ 14) (x b : Block512) :
    output512 m x b = foldOutput 16 m x.words b.words := foldOutput_take 16 x.words b.words hm

/-! ### The same outcome -/

/-- Two computations fault together, and answer the same words when neither faults (R127). -/
def SameOutcome (r r' : Except ErrCode (List Word)) : Prop :=
  ((∃ e, r = .error e) ↔ ∃ e, r' = .error e) ∧ ∀ out out', r = .ok out → r' = .ok out' → out = out'

theorem sameOutcome_of_error (e e' : ErrCode) : SameOutcome (.error e) (.error e') :=
  ⟨iff_of_true ⟨e, rfl⟩ ⟨e', rfl⟩, nofun⟩

theorem sameOutcome_refl (r : Except ErrCode (List Word)) : SameOutcome r r :=
  ⟨Iff.rfl, fun _ _ h h' => Except.ok.inj (h.symm.trans h')⟩

/-- Checks that pass together, over results that agree once they pass. -/
theorem checked_sameOutcome {checks checks' : List (Bool × ErrCode)} {out out' : List Word}
    (hchecks : firstFailing checks = none ↔ firstFailing checks' = none)
    (hout : firstFailing checks = none → out = out') :
    SameOutcome (checked checks out) (checked checks' out') := by
  cases hc : firstFailing checks with
  | none =>
    rw [checked_of_none hc, checked_of_none (hchecks.1 hc), hout hc]
    exact sameOutcome_refl _
  | some code =>
    have hne : firstFailing checks' ≠ none := fun hc' => by simp [hchecks.2 hc'] at hc
    obtain ⟨code', hc'⟩ := Option.ne_none_iff_exists'.1 hne
    rw [checked_of_some hc, checked_of_some hc']
    exact sameOutcome_of_error code code'

/-- In its size class, with the cap at P - 2, a variant accepts what the generic core accepts (R101, R126). -/
theorem variantChecks_none_iff_genericChecks {lo hi cap n : Nat} (hn : lo ≤ n ∧ n ≤ hi) (hhi : hi ≤ 16)
    (hcap : cap + 2 = pad4 n) (L m : Nat) :
    firstFailing (variantChecks lo hi cap L n m) = none ↔ firstFailing (genericChecks L n m) = none := by
  rw [variantChecks_none_iff, genericChecks_none_iff]
  omega

/-- R127 for any variant whose words, as far as its cap admits them, are the fold of the generic core at P. -/
theorem variant_sameOutcome_generic {lo hi cap P L n m : Nat} {c : Config} {inp out : List Word}
    (hn : lo ≤ n ∧ n ≤ hi) (hhi : hi ≤ 16) (hP : pad4 n = P) (hcap : cap + 2 = P)
    (hout : m ≤ cap → out = foldOutput P m (padInput P n inp) (coreRounds c L P (padInput P n inp))) :
    SameOutcome (checked (variantChecks lo hi cap L n m) out) (compressGeneric c L inp n m) := by
  subst hP
  refine checked_sameOutcome (variantChecks_none_iff_genericChecks hn hhi hcap L m) fun hc => ?_
  obtain ⟨-, -, hm, -⟩ := (variantChecks_none_iff lo hi cap L n m).1 hc
  exact hout hm

/-! ### The four variants -/

section
variable (c : Config) (L m : Nat) (inp : List Word) {n : Nat}

theorem compress128_sameOutcome (hn : 1 ≤ n ∧ n ≤ 4) :
    SameOutcome (compress128 c L inp n m) (compressGeneric c L inp n m) :=
  variant_sameOutcome_generic hn (by decide) (P := 4) (by unfold pad4; omega) rfl fun hm => by
    rw [output128_eq_foldOutput hm, rounds128_words]
    rfl

theorem compress256_sameOutcome (hn : 5 ≤ n ∧ n ≤ 8) :
    SameOutcome (compress256 c L inp n m) (compressGeneric c L inp n m) :=
  variant_sameOutcome_generic hn (by decide) (P := 8) (by unfold pad4; omega) rfl fun hm => by
    rw [output256_eq_foldOutput hm, rounds256_words]
    rfl

theorem compress384_sameOutcome (hn : 9 ≤ n ∧ n ≤ 12) :
    SameOutcome (compress384 c L inp n m) (compressGeneric c L inp n m) :=
  variant_sameOutcome_generic hn (by decide) (P := 12) (by unfold pad4; omega) rfl fun hm => by
    rw [output384_eq_foldOutput hm, rounds384_words]
    rfl

theorem compress512_sameOutcome (hn : 13 ≤ n ∧ n ≤ 16) :
    SameOutcome (compress512 c L inp n m) (compressGeneric c L inp n m) :=
  variant_sameOutcome_generic hn (by decide) (P := 16) (by unfold pad4; omega) rfl fun hm => by
    rw [output512_eq_foldOutput hm, rounds512_words]
    rfl

end

/-! ### The obligation -/

/-- Settles O31: each variant by its own datapath. -/
theorem variantsEqualGenericCore : Obligations.VariantsEqualGenericCore := by
  simp only [Obligations.VariantsEqualGenericCore, variantFunctions, List.forall_mem_cons]
  exact ⟨fun c L n m inp hlo hhi => compress128_sameOutcome c L m inp ⟨hlo, hhi⟩,
    fun c L n m inp hlo hhi => compress256_sameOutcome c L m inp ⟨hlo, hhi⟩,
    fun c L n m inp hlo hhi => compress384_sameOutcome c L m inp ⟨hlo, hhi⟩,
    fun c L n m inp hlo hhi => compress512_sameOutcome c L m inp ⟨hlo, hhi⟩, nofun⟩

end Sys2Proof.Proofs
end

section
/-! DISP (42_dispatch.md R140 to R146): the engine that serves each method and block length, and the warning of the
fallback. -/
namespace Sys2Proof.Proofs
open Sys2Proof Sys2Proof.Machine Sys2Proof.Statements

/-! ### The Snefru engine, by block length -/

section
variable (c : Config) (L m : Nat) (inp : List Word) {n : Nat}

theorem snefruRoute_128 (hn : 1 ≤ n ∧ n ≤ 4) : snefruRoute c L inp n m = compress128 c L inp n m := if_pos hn

theorem snefruRoute_256 (hn : 5 ≤ n ∧ n ≤ 8) : snefruRoute c L inp n m = compress256 c L inp n m := by
  rw [snefruRoute, if_neg (by omega), if_pos hn]

theorem snefruRoute_384 (hn : 9 ≤ n ∧ n ≤ 12) : snefruRoute c L inp n m = compress384 c L inp n m := by
  rw [snefruRoute, if_neg (by omega), if_neg (by omega), if_pos hn]

theorem snefruRoute_512 (hn : 13 ≤ n ∧ n ≤ 16) : snefruRoute c L inp n m = compress512 c L inp n m := by
  rw [snefruRoute, if_neg (by omega), if_neg (by omega), if_neg (by omega), if_pos hn]

/-- The fallback (R144). -/
theorem snefruRoute_outside (hn : n = 0 ∨ 17 ≤ n) : snefruRoute c L inp n m = compressGeneric c L inp n m := by
  rw [snefruRoute, if_neg (by omega), if_neg (by omega), if_neg (by omega), if_neg (by omega)]

/-- Whatever engine serves a length, it does what the generic core does (41_compress_specialized.md R127). -/
theorem snefruRoute_sameOutcome (n : Nat) :
    SameOutcome (snefruRoute c L inp n m) (compressGeneric c L inp n m) := by
  unfold snefruRoute
  split_ifs with h128 h256 h384 h512
  · exact compress128_sameOutcome c L m inp h128
  · exact compress256_sameOutcome c L m inp h256
  · exact compress384_sameOutcome c L m inp h384
  · exact compress512_sameOutcome c L m inp h512
  · exact sameOutcome_refl _

end

theorem ok_of_sameOutcome {r r' : Except ErrCode (List Word)} {out : List Word} (h : SameOutcome r r')
    (hr' : r' = .ok out) : r = .ok out := by
  obtain ⟨herr, hout⟩ := h
  cases hr : r with
  | ok o => rw [hout o out hr hr']
  | error e =>
    obtain ⟨e', he'⟩ := herr.1 ⟨e, hr⟩
    cases hr'.symm.trans he'

/-! ### The engine of a method -/

theorem dispatch_md4_of_shape (c : Config) (inp : List Word) {m : Nat} (hm : 1 ≤ m ∧ m ≤ 4) :
    dispatch c .md4 inp 16 m = .ok (md4Words c inp m) :=
  checked_of_none ((md4Checks_none_iff 16 m).2 ⟨rfl, hm⟩) _

theorem dispatch_md4_of_badShape (c : Config) (inp : List Word) {n m : Nat} (h : n ≠ 16 ∨ m < 1 ∨ m > 4) :
    dispatch c .md4 inp n m = .error .md4Shape := by
  have hfails : (n ≠ 16 || m < 1 || m > 4) = true := by
    simpa only [Bool.or_eq_true, decide_eq_true_eq, or_assoc] using h
  have hshape : firstFailing (md4Checks n m) = some .md4Shape := if_pos hfails
  exact checked_of_some hshape _

theorem dispatch_snefru (c : Config) {L : Nat} (hL : 1 ≤ L ∧ L ≤ 4) (inp : List Word) (n m : Nat) :
    dispatch c (.snefru L) inp n m = snefruRoute c L inp n m := by
  rw [dispatch, (unknownMethod_snefru L).2 hL]
  rfl

/-- The methods R86 gives no engine. -/
theorem methodOfSel_of_unknown {sel : Nat} (hmd4 : sel ≠ 8) (hlevel : ¬ (1 ≤ sel ∧ sel ≤ 4)) :
    methodOfSel sel = .unknown sel := by
  rw [methodOfSel, if_neg hmd4, if_neg hlevel]

/-! ### The fallback -/

theorem dispatchFallsBack_snefru {L : Nat} (hL : 1 ≤ L ∧ L ≤ 4) (n : Nat) :
    dispatchFallsBack (.snefru L) n = true ↔ n = 0 ∨ 17 ≤ n := by
  simp [dispatchFallsBack, (unknownMethod_snefru L).2 hL]

/-- The generic core refuses a length outside every size class, the output size being looked at first (R145). -/
theorem genericChecks_outside {L n : Nat} (hL : 1 ≤ L ∧ L ≤ 4) (hn : n = 0 ∨ 17 ≤ n) (m : Nat) :
    firstFailing (genericChecks L n m) = some (if m < 2 then .outMin else if m > n then .outGtIn else .inSize) := by
  have hlevel : badLevel L = false := (badLevel_eq_false_iff L).2 hL
  by_cases hmin : m < 2
  · simp [genericChecks, hlevel, hmin]
  by_cases hgt : m > n
  · simp [genericChecks, hlevel, hmin, hgt]
  · have hsize : n > 16 := by omega
    simp [genericChecks, hlevel, hmin, hgt, hsize]

/-! ### DISP in a state -/

section
variable {s : State} {method : Method} {n m : Nat}

/-- Where nothing falls back, DISP has the common shape of the commands that write RES (R140). -/
theorem exec_disp_of_noFallback (h : dispatchFallsBack method n = false) {r : Except ErrCode (List Word)}
    (hr : dispatch Config.core method s.inWords n m = r) :
    exec (.disp method n m) s = whenIdle s (.next (s.clearDone.conclude r)) := by
  have hwarn : s.clearDone.warnOnFallback method n = s.clearDone := by
    rw [State.warnOnFallback, h]
    rfl
  subst hr
  rw [exec, execDisp, dispWith, hwarn]

/-- A Snefru dispatch inside the size classes warns of nothing and runs its engine (R143). -/
theorem exec_disp_snefru_of_route {L : Nat} (hL : 1 ≤ L ∧ L ≤ 4) (hn : 1 ≤ n ∧ n ≤ 16)
    {r : Except ErrCode (List Word)} (hr : snefruRoute Config.core L s.inWords n m = r) :
    exec (.disp (.snefru L) n m) s = whenIdle s (.next (s.clearDone.conclude r)) := by
  refine exec_disp_of_noFallback ?_ ((dispatch_snefru _ hL _ n m).trans hr)
  rw [← Bool.not_eq_true, dispatchFallsBack_snefru hL]
  omega

/-- Outside them it warns, and the warning comes before the fault (R144). -/
theorem exec_disp_snefru_outside (hs : s.st = .idle) {L : Nat} (hL : 1 ≤ L ∧ L ≤ 4) (hn : n = 0 ∨ 17 ≤ n) :
    exec (.disp (.snefru L) n m) s = .next (s.clearDone.latchWarn.raiseConfig
      (if m < 2 then .outMin else if m > n then .outGtIn else .inSize)) := by
  have herr := (dispatch_snefru Config.core hL s.inWords n m).trans
    ((snefruRoute_outside Config.core L m s.inWords hn).trans (checked_of_some (genericChecks_outside hL hn m) _))
  rw [exec, execDisp, dispWith, whenIdle_of_idle hs, herr, State.warnOnFallback,
    if_pos ((dispatchFallsBack_snefru hL n).2 hn), State.conclude_error]

end

/-! ### The obligations -/

/-- Settles O32: MD4's shape passes its check, and the engine of a Snefru shape answers what the generic core does. -/
theorem dispatchCompletes : Obligations.DispatchCompletes := by
  refine fun s hs => ⟨fun m hm₁ hm₄ => ?md4, fun L n m hL₁ hL₄ hm hmn hn hpad => ?snefru⟩
  case md4 =>
    have hblock : s.inp.toList.take 16 = s.inp.toList := List.take_of_length_le (by simp)
    have hr := dispatch_md4_of_shape Config.core s.inWords ⟨hm₁, hm₄⟩
    rw [md4Words, State.inWords, hblock] at hr
    exact (exec_disp_of_noFallback rfl hr).trans (whenIdle_conclude_of_ok hs rfl)
  case snefru =>
    have hgen := compressGeneric_of_valid Config.core s.inWords ⟨hL₁, hL₄⟩ hm hmn hn hpad
    have hroute := ok_of_sameOutcome (snefruRoute_sameOutcome Config.core L m s.inWords n) hgen
    exact ⟨_, foldOutput_length .., hgen,
      (exec_disp_snefru_of_route ⟨hL₁, hL₄⟩ ⟨by omega, hn⟩ hroute).trans (whenIdle_conclude_of_ok hs rfl)⟩

/-- Settles O33: the route of each size class is its variant's function, and both commands end alike. -/
theorem dispatchRoutesByLength : Obligations.DispatchRoutesByLength := by
  simp only [Obligations.DispatchRoutesByLength, variants, List.forall_mem_cons]
  refine ⟨fun L n m s hL₁ hL₄ hlo hhi => ?c128, fun L n m s hL₁ hL₄ hlo hhi => ?c256,
    fun L n m s hL₁ hL₄ hlo hhi => ?c384, fun L n m s hL₁ hL₄ hlo hhi => ?c512, nofun⟩
  case c128 => exact exec_disp_snefru_of_route ⟨hL₁, hL₄⟩ ⟨hlo, by omega⟩ (snefruRoute_128 _ L m _ ⟨hlo, hhi⟩)
  case c256 => exact exec_disp_snefru_of_route ⟨hL₁, hL₄⟩ ⟨by omega, by omega⟩ (snefruRoute_256 _ L m _ ⟨hlo, hhi⟩)
  case c384 => exact exec_disp_snefru_of_route ⟨hL₁, hL₄⟩ ⟨by omega, by omega⟩ (snefruRoute_384 _ L m _ ⟨hlo, hhi⟩)
  case c512 => exact exec_disp_snefru_of_route ⟨hL₁, hL₄⟩ ⟨by omega, hhi⟩ (snefruRoute_512 _ L m _ ⟨hlo, hhi⟩)

/-- Settles O34: neither MD4 nor an unknown method ever falls back, so that the fault is all that happens. -/
theorem dispatchRejects : Obligations.DispatchRejects := by
  intro n m s hs
  have hunknown (k : Nat) : exec (.disp (.unknown k) n m) s = .next (faulted s .method) :=
    (exec_disp_of_noFallback rfl rfl).trans (whenIdle_conclude_of_error hs rfl)
  refine ⟨fun hshape => ?_, hunknown, fun sel _ hmd4 hlevel => ?_⟩
  · exact (exec_disp_of_noFallback rfl (dispatch_md4_of_badShape _ _ hshape)).trans (whenIdle_conclude_of_error hs rfl)
  · rw [methodOfSel_of_unknown hmd4 hlevel]
    exact hunknown sel

/-- Settles O35: the latch is tested and set, and the fault entry follows it. -/
theorem fallbackWarnsThenFaults : Obligations.FallbackWarnsThenFaults := by
  intro L n m s hs hL₁ hL₄ hn warned
  have hlatch (code : ErrCode) : s.clearDone.latchWarn.raiseConfig code = faulted warned code := by
    cases hwarn : s.warn <;> simp [warned, hwarn, State.latchWarn, State.clearDone, State.raiseConfig, faulted]
  rw [exec_disp_snefru_outside hs ⟨hL₁, hL₄⟩ hn, hlatch]

end Sys2Proof.Proofs
end

section
/-! EXPAND (43_expand.md R150 to R156): the methods it knows, the words that reach the staging block, and its checks. -/
namespace Sys2Proof.Proofs
open Sys2Proof Sys2Proof.Machine Sys2Proof.Statements

theorem knownMethod_iff (method : Method) : KnownMethod method ↔ unknownMethod method = false := by
  cases method with
  | md4 => exact iff_of_true (.inl rfl) rfl
  | snefru L => simp [unknownMethod_snefru, KnownMethod]
  | unknown k => simp [unknownMethod, KnownMethod]

/-! ### The staging block -/

theorem core_seedShift : Config.core.seedShift = 0 := rfl

/-- With EXPAND_SEED_SHIFT = 0 the tag takes the place of seed word 0 (R152). -/
theorem staging_core (s : State) (n off : Nat) : staging Config.core s.inWords n off = stagingBlock s n off := by
  refine List.map_congr_left fun i _ => ?_
  rw [core_seedShift, if_pos (Nat.zero_le i), Nat.sub_zero]
  rfl

theorem stagingBlock_set_zero (s : State) (v : Word) (n off : Nat) :
    stagingBlock { s with inp := s.inp.set 0 v } n off = stagingBlock s n off := by
  refine List.map_congr_left fun i _ => ?_
  by_cases hi : i = 0
  · rw [if_pos hi, if_pos hi]
  · have hword : (s.inp.set 0 v).toList.getD i 0 = s.inp.toList.getD i 0 := by
      simp only [Vector.toList_set, List.getD_eq_getElem?_getD, List.getElem?_set_ne (Ne.symm hi)]
    rw [hword]

/-- EXPAND reads its seed through the staging blocks only (R151). -/
theorem expandSeed_congr_staging {c : Config} {seed seed' : List Word} {n : Nat}
    (h : ∀ off, staging c seed n off = staging c seed' n off) (method : Method) (T : Nat) :
    expandSeed c method seed n T = expandSeed c method seed' n T := by
  have hloop (chunks off : Nat) :
      expandChunks c method seed n T chunks off = expandChunks c method seed' n T chunks off := by
    induction chunks generalizing off with
    | zero => rfl
    | succ k ih => simp only [expandChunks, h, ih]
  simp only [expandSeed, hloop]

/-! ### A failed check -/

theorem exec_expand_of_failing {s : State} (hs : s.st = .idle) {method : Method} {n T : Nat} {code : ErrCode}
    (hc : firstFailing (expandChecks Config.core method n T) = some code) :
    exec (.expand method n T) s = .next (faulted s code) :=
  whenIdle_conclude_of_error hs (by rw [expandSeed, hc])

/-! ### The obligations -/

/-- Settles O36: word k comes from the inner dispatch on its chunk's staging block, which is MD4's port or, the block
being 16 words long, the 512-variant. -/
theorem expandCompletes : Obligations.ExpandCompletes := by
  intro method n T s hs hknown hn hT
  obtain ⟨out, hout, hlen, hwords⟩ :=
    expandSeed_of_valid Config.core ((knownMethod_iff method).1 hknown) s.inWords hn hT
  refine ⟨out, hlen, whenIdle_conclude_of_ok hs hout, fun k hk => ?_⟩
  obtain ⟨chunk, hchunk, hword⟩ := hwords k hk
  rw [staging_core] at hchunk
  refine ⟨?md4, ?snefru⟩
  case md4 =>
    rintro rfl
    have hmd4 := dispatch_md4_of_shape Config.core (stagingBlock s n (4 * (k / 4))) (m := 4) (by decide)
    obtain rfl := Except.ok.inj (hmd4.symm.trans hchunk)
    have hblock : (stagingBlock s n (4 * (k / 4))).take 16 = stagingBlock s n (4 * (k / 4)) :=
      List.take_of_length_le (by simp [stagingBlock])
    have hk4 : k % 4 < 4 := Nat.mod_lt k (by decide)
    rw [hword, expandOut, md4Words, hblock, List.getElem?_map, List.getElem?_range hk4]
    rfl
  case snefru =>
    rintro L rfl
    exact ⟨chunk, (dispatch_snefru_16 _ ((knownMethod_iff _).1 hknown) _ 14).symm.trans hchunk, hword⟩

/-- Settles O37: the first failing check of the table decides the code. -/
theorem expandChecksInOrder : Obligations.ExpandChecksInOrder := by
  intro method n T s hs
  simp only [knownMethod_iff]
  refine ⟨fun h₁ => ?_, fun h₁ h₂ => ?_, fun h₁ h₂ h₃ => ?_⟩
  · exact exec_expand_of_failing hs (by simp [expandChecks, h₁])
  · exact exec_expand_of_failing hs (by simp [expandChecks, expandIn, core_seedShift, h₁, h₂])
  · exact exec_expand_of_failing hs (by simp [expandChecks, expandIn, core_seedShift, h₁, h₂, h₃])

/-- Settles O38: both seeds give the same staging blocks. -/
theorem expandIgnoresSeedWordZero : Obligations.ExpandIgnoresSeedWordZero := by
  intro method n T s t v h
  have hstaging (off : Nat) :
      staging Config.core s.inWords n off = staging Config.core (s.inp.set 0 v).toList n off :=
    calc staging Config.core s.inWords n off
      _ = stagingBlock s n off := staging_core s n off
      _ = stagingBlock { s with inp := s.inp.set 0 v } n off := (stagingBlock_set_zero s v n off).symm
      _ = staging Config.core (s.inp.set 0 v).toList n off := (staging_core { s with inp := s.inp.set 0 v } n off).symm
  exact whenIdle_conclude_withInp s.clearDone (s.inp.set 0 v) (expandSeed_congr_staging hstaging method T) h

end Sys2Proof.Proofs
end

section
/-! DIGEST in IDLE (44_digest.md R160 to R162): its two ends, its checks, and what it leaves unchanged. -/
namespace Sys2Proof.Proofs
open Sys2Proof Sys2Proof.Machine Sys2Proof.Statements

/-! ### The two ends of DIGEST -/

section
variable {s : State} (hs : s.st = .idle) {L d : Nat}
include hs

theorem exec_digest_of_valid (hL : 1 ≤ L ∧ L ≤ 4) (hd : 2 ≤ d ∧ d ≤ 14) :
    exec (.digest L d) s = .next (s.clearDone.openDigest L d) := by
  have hc : firstFailing (digestChecks L d) = none := (digestChecks_none_iff L d).2 ⟨hL, hd⟩
  rw [exec, execDigest, whenIdle_of_idle hs, hc]

theorem exec_digest_of_failing {code : ErrCode} (hc : firstFailing (digestChecks L d) = some code) :
    exec (.digest L d) s = .next (faulted s code) := by
  rw [exec, execDigest, whenIdle_of_idle hs, hc]
  rfl

end

/-! ### The latched parameters -/

/-- A size the checks let through fits the 4 bits of DSIZE. -/
theorem openDigest_dsize_toNat (s : State) (L : Nat) {d : Nat} (hd : 2 ≤ d ∧ d ≤ 14) :
    (s.openDigest L d).dsize.toNat = d := by
  rw [State.openDigest_dsize, BitVec.toNat_ofNat]
  omega

/-- A level the checks let through fits the 3 bits of DLEVEL. -/
theorem openDigest_dlevel_toNat (s : State) {L : Nat} (d : Nat) (hL : 1 ≤ L ∧ L ≤ 4) :
    (s.openDigest L d).dlevel.toNat = L := by
  rw [State.openDigest_dlevel, BitVec.toNat_ofNat]
  omega

theorem openDigest_digestValid (s : State) {L d : Nat} (hL : 1 ≤ L ∧ L ≤ 4) (hd : 2 ≤ d ∧ d ≤ 14) :
    (s.openDigest L d).DigestValid := by
  rw [State.DigestValid, openDigest_dsize_toNat s L hd, openDigest_dlevel_toNat s d hL]
  exact ⟨hd, hL⟩

/-! ### The obligations -/

/-- Settles O39: a DIGEST that passes its checks opens the stream, and the latches hold its operands. -/
theorem digestOpens : Obligations.DigestOpens := by
  intro L d s hs hL₁ hL₄ hd₂ hd₁₄
  have hL : 1 ≤ L ∧ L ≤ 4 := ⟨hL₁, hL₄⟩
  have hd : 2 ≤ d ∧ d ≤ 14 := ⟨hd₂, hd₁₄⟩
  exact ⟨_, exec_digest_of_valid hs hL hd, rfl, openDigest_dsize_toNat _ L hd, openDigest_dlevel_toNat _ d hL,
    fun i => vec16_getElem _ i i.isLt, rfl, rfl, rfl, rfl, rfl, rfl, rfl, rfl, rfl⟩

/-- Settles O40: the first failing check of the table decides the code, and the decoder makes the check before them. -/
theorem digestChecksInOrder : Obligations.DigestChecksInOrder := by
  intro L d s hs levelOk
  have hlevel : levelOk ↔ badLevel L = false := by
    rw [← Bool.not_eq_true, badLevel_eq_true_iff]
  simp only [hlevel]
  refine ⟨fun h₁ => ?_, fun h₁ h₂ => ?_, fun h₁ h₂ h₃ => ?_, fun h₁ h₂ h₃ h₄ => ?_, fun w hop hn => ?_⟩
  · exact exec_digest_of_failing hs (by simp [digestChecks, h₁])
  · exact exec_digest_of_failing hs (by simp [digestChecks, h₁, h₂])
  · exact exec_digest_of_failing hs (by simp [digestChecks, h₁, h₂, h₃])
  · exact exec_digest_of_failing hs (by simp [digestChecks, h₁, h₂, h₃, h₄])
  · exact step_write_illegalWord (.inr (.inr ⟨hop, hn⟩)) hs

/-- Settles O48: of the ends of a command, DIGEST has fault entry and the opening of the stream. -/
theorem digestFrame : Obligations.DigestFrame := by
  intro L d s t h
  obtain ⟨-, ⟨out, -, -, hdigest, -⟩ | ⟨code, rfl⟩ | ⟨L', n, m, code, hdisp, -⟩ | ⟨L', d', -, -, -, rfl⟩⟩ :=
    exec_next_cases h
  · exact absurd rfl (hdigest L d)
  · simp
  · cases hdisp
  · simp

end Sys2Proof.Proofs
end

section
/-! CHUNK (44_digest.md R165 to R170): the chunk absorbed, the chunk that finalizes, and the frame of the transactions
that are no command. -/
namespace Sys2Proof.Proofs
open Sys2Proof Sys2Proof.Machine Sys2Proof.Statements

/-! ### A chunk that arrives in STREAM -/

section
variable {s : State} (hs : s.st = .stream)
include hs

theorem transact_chunk_of_bytes {bytes : List Byte} (hne : bytes ≠ []) (hlen : bytes.length ≤ 4 * s.readWords) :
    transact Config.core exec (.chunk bytes) s = .next (s.absorb Config.core bytes) := by
  rw [transact_chunk, chunkWith, if_neg (by simp [hs]), if_neg (by omega), if_neg (by simpa using hne)]

theorem transact_chunk_nil : transact Config.core exec (.chunk []) s = .next (s.finalize Config.core) := by
  rw [transact_chunk, chunkWith, if_neg (by simp [hs]), if_neg (by simp)]
  exact if_pos rfl

end

/-! ### The chain block and the counter -/

/-- Below DSIZE a word of the head, from DSIZE on the word that was there (R169). -/
theorem writeHead_chain_getElem (s : State) (out : List Word) {k : Nat} (hk : k < 16) :
    (s.writeHead out).chain[k] = if k < s.dsize.toNat then out.getD k 0 else s.chain[k] := by
  simp only [State.writeHead_chain, vec16_getElem _ k hk, toList_getD _ hk]

theorem highWord_eq_extractLsb' (b : BitVec 64) : highWord b = b.extractLsb' 32 32 := rfl

theorem lowWord_eq_extractLsb' (b : BitVec 64) : lowWord b = b.extractLsb' 0 32 := rfl

/-- The length words of the last block (R170). -/
theorem writeLength_chain_getElem (s : State) {k : Nat} (hk : k < 16) :
    s.writeLength.chain[k] =
      if k = 14 then s.bitcnt.extractLsb' 32 32 else if k = 15 then s.bitcnt.extractLsb' 0 32 else s.chain[k] := by
  simp only [State.writeLength_chain, Vector.getElem_set, highWord_eq_extractLsb', lowWord_eq_extractLsb']
  by_cases h₁₄ : k = 14
  · simp [h₁₄]
  · by_cases h₁₅ : k = 15
    · simp [h₁₅]
    · simp [h₁₄, h₁₅, Ne.symm h₁₄, Ne.symm h₁₅]

/-- A read without bytes leaves only its event. -/
theorem receive_nil (c : Config) (s : State) :
    s.receive c [] = { s with trace := s.trace ++ [.srcRead s.readWords []] } := by
  simp [State.receive, placeBytes]

/-- The output has DSIZE words, whatever the parameters (R169, R170). -/
theorem compressChain_ok_length {c : Config} {s : State} {out : List Word} (h : s.compressChain c = .ok out) :
    out.length = s.dsize.toNat :=
  (compress512_eq_ok h).2.1

/-- The byte source of this CORE packs the low-order byte first (00_scope.md R9). -/
theorem core_srcByteOrder : Config.core.srcByteOrder = .le := rfl

/-! ### What a chunk leaves unchanged, with no premise on the digest's parameters -/

theorem absorb_frame (c : Config) (s : State) (bytes : List Byte) :
    (s.absorb c bytes).inp = s.inp ∧ (s.absorb c bytes).pending = s.pending ∧
      (s.absorb c bytes).answers = s.answers ∧ (s.absorb c bytes).res = s.res ∧
      (s.absorb c bytes).dsize = s.dsize ∧ (s.absorb c bytes).dlevel = s.dlevel := by
  obtain ⟨out, h⟩ | ⟨code, h⟩ := absorb_cases c s bytes <;> simp [h]

theorem finalize_frame (c : Config) (s : State) :
    (s.finalize c).inp = s.inp ∧ (s.finalize c).pending = s.pending ∧ (s.finalize c).answers = s.answers := by
  obtain ⟨out, h⟩ | ⟨code, h⟩ := finalize_cases c s <;> simp [h]

theorem finalize_res_beyond (c : Config) (s : State) {k : Nat} (hk : s.dsize.toNat ≤ k) :
    (s.finalize c).res[k]? = s.res[k]? := by
  cases h : (s.receive c []).writeLength.compressChain c with
  | ok out =>
    have hlen : out.length = s.dsize.toNat := compressChain_ok_length (s := (s.receive c []).writeLength) h
    simp only [State.finalize, h, State.discardDigest_res]
    exact State.complete_res_beyond _ out (by omega)
  | error code => simp only [State.finalize, h, State.raiseConfig_res, State.writeLength_res, State.receive_res]

/-! ### The end of a valid digest -/

/-- The machine after the final chunk: IDLE and DONE, with the 512-variant's words of the last block in RES (R170). -/
theorem finalize_completes {s : State} (c : Config) (h : s.DigestValid) :
    ∃ out, s.writeLength.compressChain c = .ok out ∧ out.length = s.dsize.toNat ∧
      (s.finalize c).res = out ++ s.res.drop s.dsize.toNat ∧ (s.finalize c).st = .idle ∧
      (s.finalize c).done = true ∧ (s.finalize c).err = s.err ∧
      (s.finalize c).trace = s.trace ++ [.srcRead s.readWords []] := by
  obtain ⟨out, hout, hlen, heq⟩ := State.finalize_of_valid c h
  rw [receive_nil] at hout
  exact ⟨out, hout, hlen, by simp [heq, hlen]⟩

/-! ### The obligations -/

/-- Settles O41: the placed block is what was received, and the head is written over it. -/
theorem chunkAbsorbs : Obligations.ChunkAbsorbs := by
  intro bytes s hs hd₂ hd₁₄ hL₁ hL₄ hne hlen d
  obtain ⟨out, hout, houtlen, heq⟩ :=
    State.absorb_of_valid Config.core bytes (s := s) ⟨⟨hd₂, hd₁₄⟩, hL₁, hL₄⟩
  refine ⟨(s.receive Config.core bytes).chain, ((s.receive Config.core bytes).writeHead out).chain, out, fun w l => ?_,
    hout, houtlen, fun k => writeHead_chain_getElem _ out k.isLt, ?_⟩
  · simpa [core_srcByteOrder] using placeBytes_lane s.dsize.toNat bytes s.chain 0 w.isLt l.isLt
  · have hbits : BitVec.ofNat 64 (s.bitcnt.toNat + 8 * bytes.length) = (s.receive Config.core bytes).bitcnt := by
      rw [BitVec.ofNat_add, BitVec.ofNat_toNat, BitVec.setWidth_eq, State.receive_bitcnt]
    rw [step_arriving, transact_chunk_of_bytes hs hne hlen, heq, hbits]
    rfl

/-- Settles O43: the last block is CHAIN with the counter's two halves in words 14 and 15. -/
theorem emptyChunkFinalizes : Obligations.EmptyChunkFinalizes := by
  intro s hs hd₂ hd₁₄ hL₁ hL₄ d
  obtain ⟨out, hout, houtlen, hres, hst, hdone, herr, htrace⟩ :=
    finalize_completes Config.core (s := s) ⟨⟨hd₂, hd₁₄⟩, hL₁, hL₄⟩
  obtain ⟨hinp, hpending, hanswers⟩ := finalize_frame Config.core s
  refine ⟨s.writeLength.chain, out, s.finalize Config.core, fun k => ?_, hout, houtlen, ?_, hres, hst, hdone,
    finalize_warn .., herr, hinp, htrace, hpending, hanswers⟩
  · simpa [Fin.ext_iff] using writeLength_chain_getElem s k.isLt
  · rw [step_arriving, transact_chunk_nil hs]

/-- Settles O49: a read answers, a write that is no command is WRIN, and a chunk is absorbed or finalizes. -/
theorem transactionsFrame : Obligations.TransactionsFrame := by
  intro s t
  refine ⟨fun addr width h => ?_, fun addr width v haddr h => ?_, fun bytes h => ?_⟩
  · rw [step_arriving, transact_memRead] at h
    exact hostRead_eq_next h
  · rw [step_arriving, transact_memWrite] at h
    obtain ⟨-, ⟨hcmd, -⟩ | ⟨i, hi, hin, -, rfl⟩⟩ := hostWrite_eq_next h
    · exact absurd hcmd haddr
    · exact ⟨⟨i, hi⟩, hin, writeIn_of_lt hi v s⟩
  · rw [step_arriving, transact_chunk] at h
    obtain ⟨-, -, ⟨rfl, rfl⟩ | ⟨hne, rfl⟩⟩ := chunkWith_eq_next h
    · obtain ⟨hinp, hpending, hanswers⟩ := finalize_frame Config.core s
      exact ⟨hinp, hpending, hanswers, finalize_warn .., fun hne => absurd rfl hne,
        fun k hk => finalize_res_beyond Config.core s hk⟩
    · obtain ⟨hinp, hpending, hanswers, hres, hdsize, hdlevel⟩ := absorb_frame Config.core s bytes
      exact ⟨hinp, hpending, hanswers, absorb_warn .., fun _ => ⟨hres, hdsize, hdlevel⟩, fun k _ => by rw [hres]⟩

end Sys2Proof.Proofs
end

section
/-! Whole streaming digests (44_digest.md R171 to R173): the run of DIGEST, its chunks and the empty chunk, which reads
nothing of the machine but the open digest. -/
namespace Sys2Proof.Proofs
open Sys2Proof Sys2Proof.Machine Sys2Proof.Statements

/-! ### The chunks of a digest, absorbed in turn -/

/-- The state after the chunks `chunks`, each absorbed (R169). -/
def absorbAll (c : Config) (s : State) (chunks : List (List Byte)) : State := chunks.foldl (State.absorb c) s

@[simp] theorem absorbAll_nil (c : Config) (s : State) : absorbAll c s [] = s := rfl

@[simp] theorem absorbAll_cons (c : Config) (s : State) (bytes : List Byte) (chunks : List (List Byte)) :
    absorbAll c s (bytes :: chunks) = absorbAll c (s.absorb c bytes) chunks := rfl

theorem absorb_digestValid {s : State} (c : Config) (bytes : List Byte) (h : s.DigestValid) :
    (s.absorb c bytes).DigestValid := by
  obtain ⟨-, -, -, -, hdsize, hdlevel⟩ := absorb_frame c s bytes
  rwa [State.DigestValid, hdsize, hdlevel]

theorem absorbAll_keeps_open {s : State} (c : Config) (chunks : List (List Byte)) (h : s.DigestValid) :
    (absorbAll c s chunks).st = s.st ∧ (absorbAll c s chunks).dsize = s.dsize ∧
      (absorbAll c s chunks).dlevel = s.dlevel := by
  induction chunks generalizing s with
  | nil => exact ⟨rfl, rfl, rfl⟩
  | cons bytes chunks ih =>
    obtain ⟨-, -, -, -, hdsize, hdlevel⟩ := absorb_frame c s bytes
    have hst : (s.absorb c bytes).st = s.st := absorb_st c bytes h
    rw [absorbAll_cons, ← hst, ← hdsize, ← hdlevel]
    exact ih (absorb_digestValid c bytes h)

/-- The counter adds up the chunks (R168). -/
theorem absorbAll_bitcnt {s : State} (c : Config) (chunks : List (List Byte)) (h : s.DigestValid) :
    (absorbAll c s chunks).bitcnt = s.bitcnt + BitVec.ofNat 64 (8 * (chunks.map List.length).sum) := by
  induction chunks generalizing s with
  | nil => simp
  | cons bytes chunks ih =>
    rw [absorbAll_cons, ih (absorb_digestValid c bytes h), absorb_bitcnt c bytes h, List.map_cons, List.sum_cons,
      Nat.mul_add, BitVec.ofNat_add, BitVec.add_assoc]

/-! ### Runs -/

/-- The queue takes no part in absorbing. -/
theorem absorb_withPending {s : State} (c : Config) (bytes : List Byte) (queue : List Transaction)
    (h : s.DigestValid) :
    State.absorb c { s with pending := queue } bytes = { s.absorb c bytes with pending := queue } := by
  obtain ⟨out, hout, -, heq⟩ := State.absorb_of_valid c bytes h
  obtain ⟨out', hout', -, heq'⟩ := State.absorb_of_valid (s := { s with pending := queue }) c bytes h
  obtain rfl : out = out' := Except.ok.inj (hout.symm.trans hout')
  rw [heq, heq']
  rfl

/-- As many steps as chunks absorb them all. -/
theorem run_chunks {s : State} (hs : s.st = .stream) (h : s.DigestValid) (chunks : List (List Byte))
    (hfit : ∀ b ∈ chunks, b ≠ [] ∧ b.length ≤ 4 * s.readWords) (rest : List Transaction) (k : Nat) :
    core.run (chunks.length + k) { s with pending := chunks.map Transaction.chunk ++ rest } =
      core.run k { absorbAll Config.core s chunks with pending := rest } := by
  induction chunks generalizing s with
  | nil => rw [List.length_nil, Nat.zero_add]; rfl
  | cons bytes chunks ih =>
    obtain ⟨⟨hne, hlen⟩, hfit⟩ := List.forall_mem_cons.1 hfit
    obtain ⟨-, -, -, -, hdsize, -⟩ := absorb_frame Config.core s bytes
    have hstep : step { s with pending := (bytes :: chunks).map Transaction.chunk ++ rest } =
        .next { s.absorb Config.core bytes with pending := chunks.map Transaction.chunk ++ rest } :=
      calc step { s with pending := (bytes :: chunks).map Transaction.chunk ++ rest }
        _ = transact Config.core exec (.chunk bytes) { s with pending := chunks.map Transaction.chunk ++ rest } :=
          step_of_pending rfl
        _ = .next (State.absorb Config.core { s with pending := chunks.map Transaction.chunk ++ rest } bytes) :=
          transact_chunk_of_bytes (s := { s with pending := chunks.map Transaction.chunk ++ rest }) hs hne hlen
        _ = .next { s.absorb Config.core bytes with pending := chunks.map Transaction.chunk ++ rest } := by
          rw [absorb_withPending Config.core bytes _ h]
    rw [List.length_cons, Nat.add_right_comm, core_run_succ hstep, absorbAll_cons]
    exact ih ((absorb_st _ bytes h).trans hs) (absorb_digestValid _ bytes h) (by rwa [State.readWords, hdsize])

section
variable {L d : Nat} (hL : 1 ≤ L ∧ L ≤ 4) (hd : 2 ≤ d ∧ d ≤ 14) {chunks : List (List Byte)} {s : State}
  (hs : s.st = .idle)
include hL hd

/-- A valid DIGEST is well formed: its operands fit their fields. -/
theorem digest_wf : (Instr.digest L d).wf = true := by
  simp only [Instr.wf, levelFits, outSizeFits, Bool.and_eq_true, decide_eq_true_eq]
  omega

include hs

theorem step_digestRun (hp : s.pending = digestRun L d chunks) :
    step s = .next { s.clearDone.openDigest L d with pending := chunks.map Transaction.chunk ++ [.chunk []] } := by
  rw [step_of_pending hp, transact_memWrite, hostWrite_cmd, writeCommand_of_ok (decode_encode (digest_wf hL hd)),
    exec_digest_of_valid (s := { s with pending := chunks.map Transaction.chunk ++ [.chunk []] }) hs hL hd]
  rfl

variable (hfit : ∀ b ∈ chunks, b ≠ [] ∧ b.length ≤ 4 * (16 - d)) (hp : s.pending = digestRun L d chunks)
include hfit hp

/-- DIGEST and its chunks leave the digest open. -/
theorem run_digest_chunks (k : Nat) :
    core.run (chunks.length + k + 1) s =
      core.run k { absorbAll Config.core (s.clearDone.openDigest L d) chunks with pending := [.chunk []] } := by
  rw [core_run_succ (step_digestRun hL hd hs hp)]
  refine run_chunks rfl (openDigest_digestValid _ hL hd) chunks ?_ _ k
  rwa [State.readWords, openDigest_dsize_toNat _ L hd]

/-- The whole digest completes: the run ends in IDLE and DONE, with the words of the last block in RES (R170). -/
theorem run_digestRun :
    ∃ t out, core.run (chunks.length + 2) s = .next t ∧ t.st = .idle ∧ t.done = true ∧
      (absorbAll Config.core (s.clearDone.openDigest L d) chunks).writeLength.compressChain Config.core = .ok out ∧
      out.length = d ∧ t.res.take d = out := by
  have hopen : (s.clearDone.openDigest L d).DigestValid := openDigest_digestValid _ hL hd
  obtain ⟨hst, hdsize, hdlevel⟩ := absorbAll_keeps_open Config.core chunks hopen
  have hvalid : (absorbAll Config.core (s.clearDone.openDigest L d) chunks).DigestValid := by
    rwa [State.DigestValid, hdsize, hdlevel]
  have hsize : (absorbAll Config.core (s.clearDone.openDigest L d) chunks).dsize.toNat = d := by
    rw [hdsize, openDigest_dsize_toNat _ L hd]
  obtain ⟨out, hout, hlen, hres, hidle, hdone, -⟩ :=
    finalize_completes (s := { absorbAll Config.core (s.clearDone.openDigest L d) chunks with pending := [] })
      Config.core hvalid
  have houtlen : out.length = d := hlen.trans hsize
  refine ⟨_, out, ?_, hidle, hdone, hout, houtlen, by rw [hres, List.take_left' houtlen]⟩
  rw [run_digest_chunks hL hd hs hfit hp 1, core_run_succ (k := 0), core_run_zero]
  exact (step_of_pending rfl).trans (transact_chunk_nil hst)

end

/-! ### Two machines with the same open digest -/

/-- The digest state of two machines agrees (10_state.md R24, R33, R34). -/
structure SameDigest (s s' : State) : Prop where
  chain : s.chain = s'.chain
  bitcnt : s.bitcnt = s'.bitcnt
  dsize : s.dsize = s'.dsize
  dlevel : s.dlevel = s'.dlevel

section
variable {s s' : State} (c : Config) (h : SameDigest s s')
include h

theorem compressChain_sameDigest : s.compressChain c = s'.compressChain c := by
  simp only [State.compressChain, h.chain, h.dsize, h.dlevel]

theorem receive_sameDigest (bytes : List Byte) : SameDigest (s.receive c bytes) (s'.receive c bytes) where
  chain := by simp only [State.receive_chain, h.chain, h.dsize]
  bitcnt := by simp only [State.receive_bitcnt, h.bitcnt]
  dsize := h.dsize
  dlevel := h.dlevel

theorem writeHead_sameDigest (out : List Word) : SameDigest (s.writeHead out) (s'.writeHead out) where
  chain := by simp only [State.writeHead_chain, h.chain, h.dsize]
  bitcnt := h.bitcnt
  dsize := h.dsize
  dlevel := h.dlevel

theorem writeLength_sameDigest : SameDigest s.writeLength s'.writeLength where
  chain := by simp only [State.writeLength_chain, h.chain, h.bitcnt]
  bitcnt := h.bitcnt
  dsize := h.dsize
  dlevel := h.dlevel

theorem absorb_sameDigest (bytes : List Byte) : SameDigest (s.absorb c bytes) (s'.absorb c bytes) := by
  have hreceive : SameDigest (s.receive c bytes) (s'.receive c bytes) := receive_sameDigest c h bytes
  simp only [State.absorb, compressChain_sameDigest c hreceive]
  cases (s'.receive c bytes).compressChain c with
  | ok out => exact writeHead_sameDigest hreceive out
  | error code => exact { hreceive with }

theorem absorbAll_sameDigest (chunks : List (List Byte)) :
    SameDigest (absorbAll c s chunks) (absorbAll c s' chunks) := by
  induction chunks generalizing s s' with
  | nil => exact h
  | cons bytes chunks ih => exact ih (absorb_sameDigest c h bytes)

end

/-- DIGEST writes the whole of the digest state (R160). -/
theorem openDigest_sameDigest (s s' : State) (L d : Nat) : SameDigest (s.openDigest L d) (s'.openDigest L d) :=
  ⟨rfl, rfl, rfl, rfl⟩

/-! ### The obligations -/

/-- The last block of a digest of no bytes (R171). -/
theorem writeLength_openDigest_chain (s : State) (L d : Nat) :
    (s.openDigest L d).writeLength.chain.toList = List.replicate 16 0 := by
  have hzero : (s.openDigest L d).writeLength.chain = Vector.replicate 16 0 := Vector.ext fun k hk => by
    rw [writeLength_chain_getElem _ hk]
    simp [vec16_getElem _ k hk]
  rw [hzero, Vector.toList_replicate]

/-- Settles O44: with no chunk the last block is all zeros, and outside the ranges a check of DIGEST fails. -/
theorem emptyInputDigest : Obligations.EmptyInputDigest := by
  refine fun L d s hs => ⟨fun hL₁ hL₄ hd₂ hd₁₄ hp => ?_, fun hrange => ?_⟩
  · have hL : 1 ≤ L ∧ L ≤ 4 := ⟨hL₁, hL₄⟩
    have hd : 2 ≤ d ∧ d ≤ 14 := ⟨hd₂, hd₁₄⟩
    obtain ⟨t, out, hrun, hst, hdone, hout, -, hres⟩ := run_digestRun hL hd hs (by simp) hp
    refine ⟨t, out, hrun, hst, hdone, ?_, hres⟩
    rwa [State.compressChain, absorbAll_nil, State.writeLength_dlevel, State.writeLength_dsize,
      openDigest_dlevel_toNat _ d hL, openDigest_dsize_toNat _ L hd, writeLength_openDigest_chain] at hout
  · cases hc : firstFailing (digestChecks L d) with
    | none =>
      obtain ⟨⟨hL₁, hL₄⟩, hd₂, hd₁₄⟩ := (digestChecks_none_iff L d).1 hc
      exact absurd ⟨hL₁, hL₄, hd₂, hd₁₄⟩ hrange
    | some code => exact ⟨code, exec_digest_of_failing hs hc⟩

/-- Settles O45: the counter starts at 0 and each chunk adds its length in bits. -/
theorem bitCountIsBytesDelivered : Obligations.BitCountIsBytesDelivered := by
  intro L d chunks s hs hL₁ hL₄ hd₂ hd₁₄ hfit hp
  have hopen : (s.clearDone.openDigest L d).DigestValid := openDigest_digestValid _ ⟨hL₁, hL₄⟩ ⟨hd₂, hd₁₄⟩
  obtain ⟨hst, -⟩ := absorbAll_keeps_open Config.core chunks hopen
  refine ⟨_, (run_digest_chunks ⟨hL₁, hL₄⟩ ⟨hd₂, hd₁₄⟩ hs hfit hp 0).trans (core_run_zero _), hst, ?_⟩
  rw [absorbAll_bitcnt _ chunks hopen, State.openDigest_bitcnt, zero_add]

/-- Settles O46: DIGEST makes the two digest states agree, the chunks keep them so, and the words are compressed from
them. -/
theorem digestIsFunctionOfChunks : Obligations.DigestIsFunctionOfChunks := by
  intro L d chunks s s' hs hs' hL₁ hL₄ hd₂ hd₁₄ hfit hp hp'
  have hL : 1 ≤ L ∧ L ≤ 4 := ⟨hL₁, hL₄⟩
  have hd : 2 ≤ d ∧ d ≤ 14 := ⟨hd₂, hd₁₄⟩
  obtain ⟨t, out, hrun, hst, hdone, hout, hlen, hres⟩ := run_digestRun hL hd hs hfit hp
  obtain ⟨t', out', hrun', hst', hdone', hout', -, hres'⟩ := run_digestRun hL hd hs' hfit hp'
  have hsame := absorbAll_sameDigest Config.core (openDigest_sameDigest s.clearDone s'.clearDone L d) chunks
  have heq : out = out' := Except.ok.inj <|
    hout.symm.trans ((compressChain_sameDigest _ (writeLength_sameDigest hsame)).trans hout')
  exact ⟨t, t', hrun, hrun', hdone, hdone', hst, hst', by rw [hres, hlen], by rw [hres, hres', heq]⟩

end Sys2Proof.Proofs
end

section
/-! The way into FAULT (60_exceptions.md R193). -/
namespace Sys2Proof.Proofs
open Sys2Proof Sys2Proof.Machine

/-- Settles O52: of the transfers of ST, only that of a word written to CMD ends in FAULT. -/
theorem onlyCommandsEnterFault : Obligations.OnlyCommandsEnterFault := by
  intro s t hinv hs h ht
  have hne : t.st ≠ s.st := fun heq => hs (heq.symm.trans ht)
  rcases sequencerTransfers s t hinv h hne with ⟨-, hidle⟩ | ⟨-, hstream, -⟩ | ⟨hs, -, w, hw⟩ | ⟨-, hidle, -⟩
  · simp [ht] at hidle
  · simp [ht] at hstream
  · exact ⟨hs, w, s.pending.tail, (List.cons_head?_tail hw).symm⟩
  · simp [ht] at hidle

end Sys2Proof.Proofs
end

section
/-! What the Host's transactions do (45_host_transactions.md R181, R182, R184): the reads of IN and RES, and a command
word written to CMD. -/
namespace Sys2Proof.Proofs
open Sys2Proof Sys2Proof.Machine Sys2Proof.Statements

/-! ### Reads of IN and RES -/

/-- A read of IN (R58). -/
theorem hostRead_in (c : Config) {i : Nat} (hi : i < 16) (s : State) :
    hostRead c (0x00040 + 4 * i) 4 s = readIn i s := by
  have hacc : accessed c (0x00040 + 4 * i) 4 = .ok (.inWord i) := accessed_of_register (by omega) (registerAt_in c hi)
  rw [hostRead, hacc]

/-- A read of RES (R58). -/
theorem hostRead_res (c : Config) {i : Nat} (hi : i < c.resWords) (s : State) :
    hostRead c (0x40000 + 4 * i) 4 s = readRes i s := by
  have hacc : accessed c (0x40000 + 4 * i) 4 = .ok (.resWord i) :=
    accessed_of_register (by omega) (registerAt_res c hi)
  rw [hostRead, hacc]

/-- Within IN no default value is read. -/
theorem readIn_of_lt {i : Nat} (hi : i < 16) (s : State) : readIn i s = .next (s.answer s.inp[i]) := by
  rw [readIn, State.inWords, toList_getD s.inp hi]

/-- Where RES holds a word no default value is read. -/
theorem readRes_of_getElem? {i : Nat} {v : Word} {s : State} (hv : s.res[i]? = some v) :
    readRes i s = .next (s.answer v) := by
  rw [readRes, List.getD_eq_getElem?_getD, hv, Option.getD_some]

/-! ### The obligations -/

/-- Settles O7: the address is CMD's, and a word written there runs the command it decodes to. -/
theorem stepRunsDecodedCommand : Obligations.StepRunsDecodedCommand := by
  intro w i s hw
  calc step (arriving (.memWrite 0x00000 4 w) s)
      = hostWrite Config.core exec 0x00000 4 w s := by rw [step_arriving, transact_memWrite]
    _ = writeCommand exec w s := hostWrite_cmd _ _ w s
    _ = exec i s := writeCommand_of_ok hw exec s

/-- Settles O11: the address is that of IN[i], whose read answers the Word and has no test of ST. -/
theorem readInputReturns : Obligations.ReadInputReturns := by
  intro i s
  rw [step_arriving, transact_memRead, hostRead_in _ i.isLt, readIn_of_lt i.isLt]
  rfl

/-- Settles O12: the address is that of RES[i], whose read answers the Word and has no test of ST. -/
theorem readResultReturns : Obligations.ReadResultReturns := by
  intro i v s hi hv
  rw [step_arriving, transact_memRead, hostRead_res _ hi, readRes_of_getElem? hv, State.answer]

end Sys2Proof.Proofs
end

section
/-! Faults (60_exceptions.md R191, R196, R198): the codes, what fault entry writes, and FAULT kept by every transaction
but RESET. -/
namespace Sys2Proof.Proofs
open Sys2Proof Sys2Proof.Machine Sys2Proof.Statements

/-! ### Fault entry -/

/-- DONE is cleared by the command's start and by fault entry alike. -/
theorem raiseConfig_clearDone (s : State) (code : ErrCode) : s.clearDone.raiseConfig code = faulted s code := rfl

/-- A latch that was clear is set, with its event, before the fault entry (42_dispatch.md R144). -/
theorem raiseConfig_latchWarn_clearDone {s : State} (hw : s.warn = false) (code : ErrCode) :
    s.clearDone.latchWarn.raiseConfig code =
      faulted { s with warn := true, trace := s.trace ++ [.warnEmitted] } code := by
  have hlatch : s.clearDone.latchWarn = { s.clearDone with warn := true, trace := s.trace ++ [.warnEmitted] } :=
    if_neg (by simp [hw])
  rw [hlatch]
  rfl

/-! ### FAULT -/

/-- A command, a WRIN and a chunk have no step in FAULT (20_memory.md R62): of the transactions but RESET, only a Host
read has one. -/
theorem transact_of_fault {u : Transaction} {s t : State} (hs : s.st = .fault) (hu : u ≠ .reset)
    (h : transact Config.core exec u s = .next t) : ∃ v, t = s.answer v := by
  have hidle : s.st ≠ .idle := by simp [hs]
  have hstream : s.st ≠ .stream := by simp [hs]
  rcases transact_next_cases h with ⟨hreset, -⟩ | ⟨_, _, v, -, ht⟩ | ⟨_, i, -, -, he⟩ | ⟨_, _, -, -, hst, -⟩ |
    ⟨_, _, -, -, hst, -⟩ | ⟨_, -, -, hst, -⟩ | ⟨-, hst, -⟩
  · exact absurd hreset hu
  · exact ⟨v, ht⟩
  · exact absurd (exec_next_cases he).1 hidle
  · exact absurd hst hidle
  · exact absurd hst hidle
  · exact absurd hst hstream
  · exact absurd hst hstream

/-! ### The obligations -/

/-- Settles O6: one equation of the code function for each row of the table. -/
theorem faultCodesAsListed : Obligations.FaultCodesAsListed :=
  ⟨rfl, rfl, rfl, rfl, rfl, rfl, rfl, rfl, rfl, rfl, rfl, rfl⟩

/-- Settles O51: of the ends of a command, two are in FAULT: fault entry, and DISP's warning before it. -/
theorem faultEntryLeavesData : Obligations.FaultEntryLeavesData := by
  intro i s t h ht
  obtain ⟨hs, ⟨out, -, -, -, rfl⟩ | ⟨code, rfl⟩ | ⟨L, n, m, code, hi, -, hn, hw, rfl⟩ | ⟨L, d, -, -, -, rfl⟩⟩ :=
    exec_next_cases h
  case inl => simp [hs] at ht
  case inr.inl => exact ⟨code, .inl (raiseConfig_clearDone s code)⟩
  case inr.inr.inl => exact ⟨code, .inr ⟨⟨L, n, m, hi, hn⟩, hw, raiseConfig_latchWarn_clearDone hw code⟩⟩
  case inr.inr.inr => simp at ht

/-- Settles O53: waiting changes nothing, and the transaction that happens is a read. -/
theorem faultIsAbsorbing : Obligations.FaultIsAbsorbing := by
  intro s t hs h hhead
  obtain ⟨hp, rfl⟩ | ⟨u, rest, hp, hu⟩ := step_next_cases h
  · exact ⟨rfl, by rw [hp, List.tail_nil]⟩
  · have hreset : u ≠ .reset := by simpa [hp] using hhead
    obtain ⟨v, rfl⟩ := transact_of_fault (s := { s with pending := rest }) hs hreset hu
    exact ⟨rfl, by rw [hp, List.tail_cons, State.answer]⟩

end Sys2Proof.Proofs
end

section
/-! The wait (70_reset_and_hazards.md R222): CORE does nothing until the Host acts. -/
namespace Sys2Proof.Proofs
open Sys2Proof Sys2Proof.Machine

/-- Settles O8: the step's equation for an empty queue. -/
theorem waitingChangesNothing : Obligations.WaitingChangesNothing :=
  fun _ hempty => step_of_empty hempty

end Sys2Proof.Proofs
end
